-- ==== Sys2Proof/Config.lean ====
section
/-! DEFINITION. The implementation parameters of spec/00_scope.md R6: the two that a configuration gives, and the fixed ones. -/

namespace Sys2Proof

namespace Config

/-- `DATA_WIDTH` (W), R6: "32 by default". It is the width of spec/opcode_table.json. -/
abbrev defaultWidth : Nat := 32

/-- `RESET_STATUS`, R6 and D19: `000` by default. -/
abbrev defaultResetStatus : BitVec 3 := 0b000

/-- The least width R7 allows. -/
abbrev minDataWidth : Nat := 9

/-- `OPCODE_WIDTH`, R6: fixed. -/
abbrev opcodeWidth : Nat := 4

/-- The width of a cell, R6: W + 4. -/
abbrev cellWidthAt (W : Nat) : Nat := opcodeWidth + W

/-- The width of a cell at the default W: 36. -/
abbrev cellWidth : Nat := cellWidthAt defaultWidth

/-- `HI_MEM`, R6: the number of cells, and the value of TOS when the stack is empty. -/
abbrev hiMem : Nat := 20

/-- `MAX_INT`, R6: the upper bound in the V test. -/
abbrev maxInt : Int := 127

/-- `MIN_INT`, R6: the lower bound in the V test. -/
abbrev minInt : Int := -128

end Config

/-- R6: "A model takes every parameter marked *parameter* as an argument of its configuration." These are the two. Every
type and operation of the model takes W as an argument; the few that depend on `RESET_STATUS` take that too. -/
structure Config where
  /-- `DATA_WIDTH` (W). -/
  dataWidth : Nat
  /-- `RESET_STATUS`. -/
  resetStatus : BitVec 3
  deriving DecidableEq, Repr

/-- R6: both parameters at their defaults: the configuration of the machine that the fixed names (`State.reset`, `exec`,
`step`, `core`) stand for (log 1, log 2). -/
abbrev Config.default : Config where
  dataWidth := Config.defaultWidth
  resetStatus := Config.defaultResetStatus

end Sys2Proof
end

