-- ==== Sys2Proof/Word.lean ====
section
/-! DEFINITION. The machine word and the memory cell (spec/00_scope.md R8, R11; spec/20_memory.md R28), at every width W.
Where a type of the model is named without its width, it is meant at the default of R6. -/

namespace Sys2Proof

/-- R8: a word is a vector of W bits. -/
abbrev Word (W : Nat := Config.defaultWidth) := BitVec W

namespace AtWidth

/-- R28: one memory cell, an opcode of 4 bits and an operand value of W bits. -/
structure MemCell (W : Nat) where
  op : BitVec 4
  opd : Word W
  deriving DecidableEq, Repr

end AtWidth

/-- R28: one memory cell. -/
abbrev MemCell (W : Nat := Config.defaultWidth) := AtWidth.MemCell W

end Sys2Proof
end

