-- ==== Sys2Proof/Machine/State.lean ====
section
/-! DEFINITION. The state of the engine (spec/10_state.md R15: "The engine's state is exactly"), the reasons a step can
stop, and the state after reset. -/

namespace Sys2Proof.Machine

/-- R25: the engine state `ES`. Its 2-bit codes are `EngineState.code`. -/
inductive EngineState where
  /-- Power-on, before the first START. -/
  | idle
  /-- The source's Fetching and Dispatching, the two phases of one atomic step. -/
  | running
  /-- HLT was fetched. -/
  | haltedNormal
  /-- A fault stopped the run. -/
  | haltedError
  deriving DecidableEq, Repr

/-- R27, R97: the values of `CAUSE`. Its 3-bit codes are `Cause.code`. Code 7 is "never raised" and has no constructor
here, as U6 asks (log 11). -/
inductive Cause where
  /-- 0 NONE. -/
  | none
  /-- 1 ARITH_OVERFLOW: ADD or SUB left V. -/
  | arithOverflow
  /-- 2 FETCH_ADDRESS: PC outside 0..19 at a fetch. -/
  | fetchAddress
  /-- 3 DATA_ADDRESS: the operand address of LDA, STA, ADD or SUB outside 0..19. -/
  | dataAddress
  /-- 4 STACK_OVERFLOW: JSR with a full stack. -/
  | stackOverflow
  /-- 5 STACK_UNDERFLOW: RTN with an empty stack. -/
  | stackUnderflow
  /-- 6 ILLEGAL_OPCODE: ERR, 14 or 15. -/
  | illegalOpcode
  deriving DecidableEq, Repr

/-- R28: the memory, as the cells that differ from what an unlisted address reads as, in rising order of address
(`Memory.wf`). The unit is the cell: the engine has no bytes (R34; log 5). -/
abbrev Memory (W : Nat := Config.defaultWidth) := List (Nat × MemCell W)

namespace AtWidth

/-- R15: the engine's state, at the width W of the configuration (R6). -/
structure State (W : Nat) where
  /-- R17: the accumulator. -/
  acc : Word W
  /-- R18: the address of the next cell to fetch. -/
  pc : Word W
  /-- R22: the stack pointer; 20 means an empty stack. -/
  tos : Word W
  /-- R20: Z in bit 2, N in bit 1, V in bit 0. -/
  status : BitVec 3
  /-- R26: the error flag. -/
  err : BitVec 1
  /-- R27: which fault stopped the run. -/
  cause : Cause
  /-- R25: the engine state. -/
  es : EngineState
  /-- R24: the hidden fetched-cell latch. -/
  ir : MemCell W
  /-- R28: the 20 cells. -/
  mem : Memory W
  deriving DecidableEq, Repr

end AtWidth

/-- R15: the engine's state; named without its width, that of the default machine. -/
abbrev State (W : Nat := Config.defaultWidth) := AtWidth.State W

/-- Why the engine stops without a next state. The spec's own faults (R97) are NOT here: their effect is fully given
by R96, so a step that raises one answers a next state with ES = HALTED_ERROR (log 8). -/
inductive Fault where
  /-- Raised by `step` in IDLE: the engine has no step before the first START (R58). Safe. -/
  | noStepIdle
  /-- Raised by `step` in HALTED_NORMAL: the run is over (R58, R67). Safe. -/
  | noStepHaltedNormal
  /-- Raised by `step` in HALTED_ERROR: the run is over (R58, R67). Safe. -/
  | noStepHaltedError
  /-- Raised by JSR and RTN when TOS lies outside 0..20, so that the stack cell does not exist. No state after a START
  is like that (R22). Safe (log 9). -/
  | stackCellMissing
  deriving DecidableEq, Repr

/-- Why the model gives no answer. -/
inductive Refusal where
  /-- Answered by `exec` for an instruction that has no meaning yet: none is left. Safe. -/
  | notModelled (mnemonic : String)
  /-- Answered by `boot` for an image that does not give all 20 cells (R114, U13). Safe. -/
  | imageNotFull
  /-- Answered by `boot` for an image that fails the host's pre-flight check (R118, R120, U1). Safe. -/
  | preflightFailed
  deriving DecidableEq, Repr

/-- The outcome of one instruction or one step. -/
abbrev Result (W : Nat := Config.defaultWidth) := Host.Outcome (State W) Fault Refusal

/-- The machine of a configuration right after reset. The spec's reset of the registers is START (R23, R115), so ES is RUNNING
and PC is at the entry cell 0; STATUS is the configuration's `RESET_STATUS`; memory lists nothing, since the host loads it
(R114; log 4, log 6). IR is "unspecified": the latch is given the cleared cell (DESIGN CHOICE, log 3; unsafe in form only,
since the first step overwrites it before use). -/
def State.resetAt (cfg : Config) : State cfg.dataWidth where
  acc := 0
  pc := 0
  tos := BitVec.ofNat cfg.dataWidth Config.hiMem
  status := cfg.resetStatus
  err := 0
  cause := .none
  es := .running
  ir := { op := 0, opd := 0 }
  mem := []

/-- The default machine right after reset (log 1, log 2). -/
def State.reset : State := State.resetAt Config.default

end Sys2Proof.Machine
end

