-- ==== Sys2Proof/Machine/Ops.lean ====
section
/-! DEFINITION. The named operations over registers and memory (spec/00_scope.md R9 to R12, spec/20_memory.md R33,
spec/60_exceptions.md R96). The address check, the cell index and the sums are written for every width W (R6). -/

namespace Sys2Proof.Machine

variable {W : Nat}

/-! ### Registers -/

/-- `ACC <- v`. -/
def State.setAcc (s : State W) (v : Word W) : State W := { s with acc := v }

/-- `PC <- v`. -/
def State.setPc (s : State W) (v : Word W) : State W := { s with pc := v }

/-- `TOS <- v`. -/
def State.setTos (s : State W) (v : Word W) : State W := { s with tos := v }

/-- `STATUS <- v`. -/
def State.setStatus (s : State W) (v : BitVec 3) : State W := { s with status := v }

/-- `ES <- e`. -/
def State.setEs (s : State W) (e : EngineState) : State W := { s with es := e }

/-- `IR <- c` (R62). -/
def State.setIr (s : State W) (c : MemCell W) : State W := { s with ir := c }

/-- The memory replaced whole; the operations below are its only callers. -/
def State.setMem (s : State W) (m : Memory W) : State W := { s with mem := m }

/-! ### Arithmetic (R9) -/

/-- R9: `a +W b = w(s(a) + s(b))`. -/
def addW {w : Nat} (a b : BitVec w) : BitVec w := BitVec.ofInt w (a.toInt + b.toInt)

/-- R9: `a −W b = w(s(a) − s(b))`. -/
def subW {w : Nat} (a b : BitVec w) : BitVec w := BitVec.ofInt w (a.toInt - b.toInt)

/-- `w(s(a) + 1)`, of the PC advance (R64) and the pop (R85). -/
def incW {w : Nat} (a : BitVec w) : BitVec w := BitVec.ofInt w (a.toInt + 1)

/-- `w(s(a) − 1)`, of the push (R84). -/
def decW {w : Nat} (a : BitVec w) : BitVec w := BitVec.ofInt w (a.toInt - 1)

/-! ### Memory -/

/-- R11: `valid(a)`: 0 <= s(a) <= HI_MEM - 1. -/
def valid {w : Nat} (a : BitVec w) : Bool :=
  decide (0 ≤ a.toInt ∧ a.toInt ≤ (Config.hiMem : Int) - 1)

/-- The number of the cell a valid address names: `s(a)` (R11). -/
def cellIndex {w : Nat} (a : BitVec w) : Nat := a.toInt.toNat

/-- What a cell reads as that the memory does not list: (none, 0). The spec leaves the contents before the image load
unspecified (R112) and gives (none, 0) to every cell an assembled image does not use (R44). DESIGN CHOICE (log 4), unsafe
for a claim about the contents of an unloaded machine. -/
def unlistedCell : MemCell W := { op := 0, opd := 0 }

/-- `MEM[n]`: the cell numbered n. -/
def Memory.cellAt : Memory W → Nat → MemCell W
  | [], _ => unlistedCell
  | (b, c) :: m, n => if n = b then c else Memory.cellAt m n

/-- `MEM[n] <- c`, keeping the canonical form: writing what an unlisted cell reads as removes the entry. -/
def Memory.write : Memory W → Nat → MemCell W → Memory W
  | [], n, c => if c = unlistedCell then [] else [(n, c)]
  | (b, d) :: m, n, c =>
    if n < b then
      if c = unlistedCell then (b, d) :: m else (n, c) :: (b, d) :: m
    else if n = b then
      if c = unlistedCell then m else (n, c) :: m
    else (b, d) :: Memory.write m n c

/-- The canonical form: addresses strictly rising and inside 0..19 (R28), no entry equal to an unlisted cell. -/
abbrev Memory.wf (m : Memory W) : Prop :=
  m.Pairwise (fun p q => p.1 < q.1) ∧ ∀ p ∈ m, p.1 < Config.hiMem ∧ p.2 ≠ unlistedCell

/-- The cell numbered n in the memory of a state. -/
def State.cellAt (s : State W) (n : Nat) : MemCell W := s.mem.cellAt n

/-- `MEM[n].opd <- v`, with `MEM[n].op` unchanged (R11, R32). -/
def State.writeOpd (s : State W) (n : Nat) (v : Word W) : State W :=
  s.setMem (s.mem.write n { op := (s.cellAt n).op, opd := v })

/-- `MEM[n] <- c`, both fields: the host's LOAD_CELL alone does this (R113, R114). -/
def State.loadCell (s : State W) (n : Nat) (c : MemCell W) : State W := s.setMem (s.mem.write n c)

/-- R33: `FetchCell(a)`; `none` for an address that is not valid. -/
def fetchCell (a : Word W) (s : State W) : Option (MemCell W) :=
  if valid a then some (s.cellAt (cellIndex a)) else none

/-- R33: `MemRead(a, 1)`; `none` for an address that is not valid. -/
def memRead (a : Word W) (s : State W) : Option (Word W) :=
  if valid a then some (s.cellAt (cellIndex a)).opd else none

/-- R33: `MemWrite(a, 1, v)`; `none` for an address that is not valid. -/
def memWrite (a v : Word W) (s : State W) : Option (State W) :=
  if valid a then some (s.writeOpd (cellIndex a) v) else none

/-! ### Control -/

/-- R64: the PC advance of every instruction but HLT. -/
def advancePc (s : State W) : State W := s.setPc (incW s.pc)

/-- R96: the state after `raise Fault(c)`. Nothing is saved and nothing is vectored (R101), and there is no return from a
fault (R102): only a START leaves HALTED_ERROR. -/
def raiseFault (c : Cause) (s : State W) : State W :=
  { s with err := 1, cause := c, es := .haltedError }

/-- `raise Fault(c)` as the end of an instruction: the rest of the arm does not run (R96). -/
def raise (c : Cause) (s : State W) : Result W := .next (raiseFault c s)

/-- R12, R91: `halt`. -/
def haltNormal (s : State W) : State W := s.setEs .haltedNormal

end Sys2Proof.Machine
end

