-- ==== Sys2Proof/Machine/Flags.lean ====
section
/-! DEFINITION. The flag function and the two places that test a flag (spec/42_alu.md R74, R75, R76). -/

namespace Sys2Proof.Machine

variable {W : Nat}

/-- R74: the value `SetFlags(v)` writes to STATUS, tested in the fixed priority Z, N, V. The arm for N comes before the
range test, so a negative value below -128 is N and never V (R75). -/
def flagsOf {w : Nat} (v : BitVec w) : BitVec 3 :=
  if v.toInt = 0 then 0b100
  else if v.toInt < 0 then 0b010
  else if v.toInt > Config.maxInt ∨ v.toInt < Config.minInt then 0b001
  else 0b000

/-- R12: `SetFlags(v)`. -/
def State.setFlags (s : State W) (v : Word W) : State W := s.setStatus (flagsOf v)

/-- R76: BEQ tests bit 2 (Z) of STATUS. -/
def zeroFlag (st : BitVec 3) : Bool := st.getLsbD 2

/-- R76: ADD and SUB test STATUS = 001 (V). -/
def overflowFlag (st : BitVec 3) : Bool := st == 0b001

/-- `ACC <- v; SetFlags(ACC)`, the end of LDA, LDA#, ADD and SUB. -/
def State.writeAcc (s : State W) (v : Word W) : State W := (s.setAcc v).setFlags v

end Sys2Proof.Machine
end

