-- ==== Sys2Proof/Syntax.lean ====
section
/-! DEFINITION. The instructions: one constructor for each row of spec/opcode_table.json (spec/30_encoding.md R46).
Each holds its operand word `opd` of W bits whole, also where R47 says that the instruction ignores it. -/

namespace Sys2Proof

/-- R46, in the order of the opcode values 0 to 15. -/
inductive Instr (W : Nat := Config.defaultWidth) where
  /-- `none`, op 0: an empty cell or a data cell (R92). -/
  | noneOp (opd : Word W)
  /-- `LDA`, op 1 (R71). -/
  | lda (addr : Word W)
  /-- `STA`, op 2 (R72). -/
  | sta (addr : Word W)
  /-- `LDA#`, op 3 (R73). -/
  | ldaImm (lit : Word W)
  /-- `ADD`, op 4 (R77). -/
  | add (addr : Word W)
  /-- `JMP`, op 5 (R82). -/
  | jmp (target : Word W)
  /-- `SUB`, op 6 (R78). -/
  | sub (addr : Word W)
  /-- `CMP#`, op 7 (R79). -/
  | cmpImm (lit : Word W)
  /-- `BEQ`, op 8 (R83). -/
  | beq (target : Word W)
  /-- `SKP`, op 9 (R90). -/
  | skp (opd : Word W)
  /-- `JSR`, op 10 (R84). -/
  | jsr (target : Word W)
  /-- `RTN`, op 11 (R85). -/
  | rtn (opd : Word W)
  /-- `HLT`, op 12 (R91). -/
  | hlt (opd : Word W)
  /-- `ERR`, op 13: the assembler's error marker, illegal at run time (R93). -/
  | err (opd : Word W)
  /-- op 14, reserved (R94). -/
  | reserved14 (opd : Word W)
  /-- op 15, reserved (R94). -/
  | reserved15 (opd : Word W)
  deriving DecidableEq, Repr

/-- The operand word of an instruction (R45, field `opd`). -/
def Instr.operand {W : Nat} : Instr W → Word W
  | .noneOp v => v
  | .lda v => v
  | .sta v => v
  | .ldaImm v => v
  | .add v => v
  | .jmp v => v
  | .sub v => v
  | .cmpImm v => v
  | .beq v => v
  | .skp v => v
  | .jsr v => v
  | .rtn v => v
  | .hlt v => v
  | .err v => v
  | .reserved14 v => v
  | .reserved15 v => v

end Sys2Proof
end

