-- ==== Sys2Proof/Machine/Operands.lean ====
section
/-! DEFINITION. How an instruction uses its operand (spec/30_encoding.md R47, R48; spec/41_load_store.md R70), and the
shared ends of the data instructions. The operand is used whole; direct addressing is the only addressing mode. -/

namespace Sys2Proof.Machine

variable {W : Nat}

/-- R47: the five uses of `opd`. -/
inductive OperandUse where
  | dataAddress
  | literal
  | target
  | ignored
  | notExecuted
  deriving DecidableEq, Repr

/-- R47: the use of `opd` by each opcode. -/
def operandUse : Instr W → OperandUse
  | .noneOp _ => .ignored
  | .lda _ => .dataAddress
  | .sta _ => .dataAddress
  | .ldaImm _ => .literal
  | .add _ => .dataAddress
  | .jmp _ => .target
  | .sub _ => .dataAddress
  | .cmpImm _ => .literal
  | .beq _ => .target
  | .skp _ => .ignored
  | .jsr _ => .target
  | .rtn _ => .ignored
  | .hlt _ => .ignored
  | .err _ => .notExecuted
  | .reserved14 _ => .notExecuted
  | .reserved15 _ => .notExecuted

/-- A data read at the operand address, the first lines of LDA, ADD and SUB: DATA_ADDRESS before the access if the
address is not valid (R71, R77, R78), else go on with the value read. -/
def withData (a : Word W) (s : State W) (use : Word W → Result W) : Result W :=
  match memRead a s with
  | none => raise .dataAddress s
  | some m => use m

/-- A data write at the operand address, the body of STA: DATA_ADDRESS before the access if the address is not valid
(R72). -/
def storeData (a v : Word W) (s : State W) : Result W :=
  match memWrite a v s with
  | none => raise .dataAddress s
  | some t => .next t

/-- The end of ADD and SUB (R77, R78): ACC and STATUS are written, then ARITH_OVERFLOW is raised if STATUS is 001, so the
out-of-range result stays in ACC (R98). -/
def finishArith (v : Word W) (s : State W) : Result W :=
  if overflowFlag (s.writeAcc v).status then raise .arithOverflow (s.writeAcc v)
  else .next (s.writeAcc v)

end Sys2Proof.Machine
end

