-- ==== Sys2Proof/Machine/Alu.lean ====
section
/-! DEFINITION. ADD, SUB, CMP# (spec/42_alu.md). -/

namespace Sys2Proof.Machine

variable {W : Nat}

/-- R77, ADD addr. -/
def execAdd (addr : Word W) (s : State W) : Result W :=
  withData addr (advancePc s) fun m => finishArith (addW s.acc m) (advancePc s)

/-- R78, SUB addr. -/
def execSub (addr : Word W) (s : State W) : Result W :=
  withData addr (advancePc s) fun m => finishArith (subW s.acc m) (advancePc s)

/-- R79, CMP# lit: the flags of the difference; ACC is unchanged and V does not fault. -/
def execCmpImm (lit : Word W) (s : State W) : Result W :=
  .next ((advancePc s).setFlags (subW s.acc lit))

end Sys2Proof.Machine
end

