-- ==== Sys2Proof/Machine/Control.lean ====
section
/-! DEFINITION. JMP, BEQ, JSR, RTN and the stack (spec/43_control_transfer.md). A target is written to PC unchecked: the
next fetch checks it (R47). -/

namespace Sys2Proof.Machine

variable {W : Nat}

/-- R82, JMP addr. -/
def execJmp (target : Word W) (s : State W) : Result W :=
  .next ((advancePc s).setPc target)

/-- R83, BEQ addr. -/
def execBeq (target : Word W) (s : State W) : Result W :=
  if zeroFlag s.status then .next ((advancePc s).setPc target) else .next (advancePc s)

/-- R84, JSR addr: the bound check of R87, then TOS is decremented, the advanced PC is written to the cell at the new TOS,
and PC takes the target. -/
def execJsr (target : Word W) (s : State W) : Result W :=
  if s.tos.toInt ≤ 0 then raise .stackOverflow (advancePc s)
  else
    match memWrite (decW s.tos) (incW s.pc) ((advancePc s).setTos (decW s.tos)) with
    | none => .fault .stackCellMissing
    | some t => .next (t.setPc target)

/-- R85, RTN: the bound check of R87, then PC takes the operand of the cell at TOS, and TOS is incremented. The cell is not
cleared, and the operand of the RTN is ignored. -/
def execRtn (_opd : Word W) (s : State W) : Result W :=
  if s.tos.toInt ≥ Config.hiMem then raise .stackUnderflow (advancePc s)
  else
    match memRead s.tos (advancePc s) with
    | none => .fault .stackCellMissing
    | some v => .next (((advancePc s).setPc v).setTos (incW s.tos))

end Sys2Proof.Machine
end

