-- ==== Sys2Proof/Machine/LoadStore.lean ====
section
/-! DEFINITION. LDA, STA, LDA# (spec/41_load_store.md). Each meaning starts at the state with IR fetched and PC still at
the instruction, and begins with the PC advance of R64. -/

namespace Sys2Proof.Machine

variable {W : Nat}

/-- R71, LDA addr. -/
def execLda (addr : Word W) (s : State W) : Result W :=
  withData addr (advancePc s) fun m => .next ((advancePc s).writeAcc m)

/-- R72, STA addr. -/
def execSta (addr : Word W) (s : State W) : Result W :=
  storeData addr s.acc (advancePc s)

/-- R73, LDA# lit. -/
def execLdaImm (lit : Word W) (s : State W) : Result W :=
  .next ((advancePc s).writeAcc lit)

end Sys2Proof.Machine
end

