-- ==== Sys2Proof/Machine/Misc.lean ====
section
/-! DEFINITION. SKP, HLT, none, ERR and the reserved opcodes (spec/44_misc.md). -/

namespace Sys2Proof.Machine

variable {W : Nat}

/-- R92, none: a no-op; PC keeps the advanced value. -/
def execNone (_opd : Word W) (s : State W) : Result W := .next (advancePc s)

/-- R90, SKP: a no-op; it does not skip the next instruction. -/
def execSkp (_opd : Word W) (s : State W) : Result W := .next (advancePc s)

/-- R91, HLT: recognised at fetch, before the PC advance (R63), so PC keeps the address of the HLT. -/
def execHlt (_opd : Word W) (s : State W) : Result W := .next (haltNormal s)

/-- R93, ERR: ILLEGAL_OPCODE, after the PC advance. -/
def execErr (_opd : Word W) (s : State W) : Result W := raise .illegalOpcode (advancePc s)

/-- R94, opcode 14: ILLEGAL_OPCODE, after the PC advance. -/
def execReserved14 (_opd : Word W) (s : State W) : Result W := raise .illegalOpcode (advancePc s)

/-- R94, opcode 15: ILLEGAL_OPCODE, after the PC advance. -/
def execReserved15 (_opd : Word W) (s : State W) : Result W := raise .illegalOpcode (advancePc s)

end Sys2Proof.Machine
end

