-- ==== Sys2Proof/Machine/Dispatch.lean ====
section
/-! DEFINITION. The dispatch of spec/40_execution_cycle.md R60 and R65: one arm per opcode, no default arm. -/

namespace Sys2Proof.Machine

/-- R65: the opcode selects exactly one arm. -/
def exec (i : Instr) (s : State) : Host.Outcome State Fault Refusal :=
  match i with
  | .noneOp opd => Sys2Proof.Machine.execNone opd s
  | .lda addr => Sys2Proof.Machine.execLda addr s
  | .sta addr => Sys2Proof.Machine.execSta addr s
  | .ldaImm lit => Sys2Proof.Machine.execLdaImm lit s
  | .add addr => Sys2Proof.Machine.execAdd addr s
  | .jmp target => Sys2Proof.Machine.execJmp target s
  | .sub addr => Sys2Proof.Machine.execSub addr s
  | .cmpImm lit => Sys2Proof.Machine.execCmpImm lit s
  | .beq target => Sys2Proof.Machine.execBeq target s
  | .skp opd => Sys2Proof.Machine.execSkp opd s
  | .jsr target => Sys2Proof.Machine.execJsr target s
  | .rtn opd => Sys2Proof.Machine.execRtn opd s
  | .hlt opd => Sys2Proof.Machine.execHlt opd s
  | .err opd => Sys2Proof.Machine.execErr opd s
  | .reserved14 opd => Sys2Proof.Machine.execReserved14 opd s
  | .reserved15 opd => Sys2Proof.Machine.execReserved15 opd s

end Sys2Proof.Machine
end

