-- ==== Sys2Proof/Decode.lean ====
section
/-! DEFINITION. Decoding and encoding (spec/30_encoding.md R45, R46, R49). -/

namespace Sys2Proof

variable {W : Nat}

/-- R46, the table of opcode values: row n is the instruction of opcode n. -/
def opcodeRows : Vector (Word W → Instr W) 16 :=
  #v[.noneOp, .lda, .sta, .ldaImm, .add, .jmp, .sub, .cmpImm,
     .beq, .skp, .jsr, .rtn, .hlt, .err, .reserved14, .reserved15]

/-- R49: decoding is a total function of the 4-bit `op` field; `opd` is carried whole (R48). -/
def decodeCell (c : MemCell W) : Instr W :=
  (opcodeRows[c.op.toNat]'(c.op.isLt)) c.opd

/-- Why a number is not one cell. -/
inductive DecodeError where
  /-- It has a bit above the W + 4 bits of R45, so it is no cell. Safe: nothing is decoded. -/
  | widerThanCell
  deriving DecidableEq, Repr

/-- R45: the cell whose bits are `w`: `op` in bits [W+3:W], `opd` in bits [W-1:0]. -/
def cellOfBits (w : Nat) : MemCell W :=
  { op := BitVec.ofNat 4 (w / 2 ^ W), opd := BitVec.ofNat W w }

/-- Decode a number as the bits of one cell; a number with more bits than a cell has is rejected by name. -/
def decodeBits (w : Nat) : Except DecodeError (Instr W) :=
  if w < 2 ^ Config.cellWidthAt W then .ok (decodeCell (cellOfBits w)) else .error .widerThanCell

/-- The instruction the decoder of the default machine reads from the bits `w` of a row of spec/opcode_table.json, which is
written for W = 32. Every instruction is one
cell of 36 bits (R45, R51), so the number of bits given, `_nbits`, selects nothing: a bit at or above it is 0 in `w`. -/
def decodeTableWord (_nbits w : Nat) : Option Instr :=
  match decodeBits w with
  | .ok i => some i
  | .error _ => none

/-- R46: the opcode value of an instruction. -/
def Instr.opcode : Instr W → BitVec 4
  | .noneOp _ => 0b0000
  | .lda _ => 0b0001
  | .sta _ => 0b0010
  | .ldaImm _ => 0b0011
  | .add _ => 0b0100
  | .jmp _ => 0b0101
  | .sub _ => 0b0110
  | .cmpImm _ => 0b0111
  | .beq _ => 0b1000
  | .skp _ => 0b1001
  | .jsr _ => 0b1010
  | .rtn _ => 0b1011
  | .hlt _ => 0b1100
  | .err _ => 0b1101
  | .reserved14 _ => 0b1110
  | .reserved15 _ => 0b1111

/-- R45: the cell of an instruction, `op ++ opd`. -/
def encode (i : Instr W) : MemCell W := { op := i.opcode, opd := i.operand }

/-- R45: the bits of a cell, `op ++ opd`, as a number. -/
def cellBits (c : MemCell W) : Nat := c.op.toNat * 2 ^ W + c.opd.toNat

/-- The bits of an instruction as a number, numbered as spec/opcode_table.json numbers them. -/
def encodeBits (i : Instr W) : Nat := cellBits (encode i)

end Sys2Proof
end

