-- ==== Sys2Proof/Machine/Fetch.lean ====
section
/-! DEFINITION. The fetch phase of a step (spec/40_execution_cycle.md R57, R58, R60 to R62), and the placing of a cell where
the next fetch reads it. -/

namespace Sys2Proof.Machine

variable {W : Nat}

/-- What the fetch phase gives. -/
inductive FetchResult (W : Nat) where
  /-- The engine has no step (R58). -/
  | noStep (f : Fault)
  /-- FETCH_ADDRESS was raised: the step is over in state t (R61). -/
  | faulted (t : State W)
  /-- The cell c was latched into IR: the step goes on from t (R62). -/
  | fetched (c : MemCell W) (t : State W)
  deriving DecidableEq, Repr

/-- R58, R61, R62: a step only while ES = RUNNING; the fetch check before anything is read; then one read of both fields
of `MEM[PC]` into IR. -/
def fetch (s : State W) : FetchResult W :=
  match s.es with
  | .idle => .noStep .noStepIdle
  | .haltedNormal => .noStep .noStepHaltedNormal
  | .haltedError => .noStep .noStepHaltedError
  | .running =>
    match fetchCell s.pc s with
    | none => .faulted (raiseFault .fetchAddress s)
    | some c => .fetched c (s.setIr c)

/-- R60: `Step()` at every width: the fetch phase, then `run`, the dispatch of the decoded cell. -/
def stepWith (run : Instr W → State W → Result W) (s : State W) : Result W :=
  match fetch s with
  | .noStep f => .fault f
  | .faulted t => .next t
  | .fetched c t => run (decodeCell c) t

/-- The state s made ready to fetch: ES is RUNNING, and PC is left alone unless it is no valid address, when it becomes the
entry cell 0 (log 17). -/
def readyToFetch (s : State W) : State W := (if valid s.pc then s else s.setPc 0).setEs .running

/-- The state s with the cell c where the next fetch reads it. -/
def placeAtFetch (s : State W) (c : MemCell W) : State W :=
  (readyToFetch s).loadCell (cellIndex (readyToFetch s).pc) c

end Sys2Proof.Machine
end

