-- ==== Sys2Proof/Machine/Step.lean ====
section
/-! DEFINITION. One step of the engine (spec/40_execution_cycle.md R60): the fetch phase, then the dispatch of the decoded
cell. -/

namespace Sys2Proof.Machine

/-- R60: `Step()` of the default machine. -/
def step (s : State) : Host.Outcome State Fault Refusal := stepWith exec s

/-- The state s with the instruction whose bits are w stored where `step` fetches next. Every instruction is one cell of 36
bits, so `_nbits` selects nothing. It stands for the host's image load (log 6). -/
def State.withFetchWord (s : State) (_nbits w : Nat) : State := placeAtFetch s (cellOfBits w)

end Sys2Proof.Machine
end

