-- ==== Sys2Proof/WellFormed.lean ====
section
/-! DEFINITION. Which instructions and which images may be given to the machine. -/

namespace Sys2Proof

variable {W : Nat}

/-- R49: "No value of `opd` is reserved or illegal for any opcode", and the two fields of a cell are as wide as the
constructors' operands, so every instruction is well formed: what an operand outside 0..19 does is the machine's
business (R47). -/
def Instr.wellFormed : Instr W → Bool
  | .noneOp _ => true
  | .lda _ => true
  | .sta _ => true
  | .ldaImm _ => true
  | .add _ => true
  | .jmp _ => true
  | .sub _ => true
  | .cmpImm _ => true
  | .beq _ => true
  | .skp _ => true
  | .jsr _ => true
  | .rtn _ => true
  | .hlt _ => true
  | .err _ => true
  | .reserved14 _ => true
  | .reserved15 _ => true

/-- R45: a number that is the bits of one cell of the default machine. -/
def wordWellFormed (w : Nat) : Bool := decide (w < 2 ^ Config.cellWidth)

/-- R20, R21: the legal values of STATUS, which D19 also asks of `RESET_STATUS`. -/
def statusLegal (st : BitVec 3) : Bool :=
  st == 0b000 || st == 0b001 || st == 0b010 || st == 0b100

/-- R7: W must be at least 9. -/
def widthLegal (w : Nat) : Bool := decide (Config.minDataWidth ≤ w)

/-- R6, R7, D19: the configurations an engine may have. -/
def Config.wellFormed (cfg : Config) : Bool := widthLegal cfg.dataWidth && statusLegal cfg.resetStatus

/-- R114: an image gives all 20 cells; U13: one with a cell missing cannot be launched. -/
def imageFull (img : List (MemCell W)) : Bool := img.length == Config.hiMem

/-- R118, the host's pre-flight check of cell 0: its opcode is not ERR and its operand is not 0. -/
def preflightOk (c0 : MemCell W) : Bool := c0.op != 0b1101 && c0.opd != 0

end Sys2Proof
end

