-- ==== Sys2Proof/Machine/HostPort.lean ====
section
/-! DEFINITION. The host interface (spec/70_reset_and_hazards.md R112 to R120): power-on, the five operations, and the boot
order. The host acts between steps; `step` is the engine alone. -/

namespace Sys2Proof.Machine

variable {W : Nat}

/-- R25: the 2-bit code of ES. -/
def EngineState.code : EngineState → BitVec 2
  | .idle => 0
  | .running => 1
  | .haltedNormal => 2
  | .haltedError => 3

/-- R97: the 3-bit code of CAUSE. -/
def Cause.code : Cause → BitVec 3
  | .none => 0
  | .arithOverflow => 1
  | .fetchAddress => 2
  | .dataAddress => 3
  | .stackOverflow => 4
  | .stackUnderflow => 5
  | .illegalOpcode => 6

/-- R112: a state the engine may have after power-on: ES = IDLE, and every register and every cell holds any value (the
memory is written in its canonical form, which every contents of the 20 cells has) (log 7). -/
abbrev State.powerOn (s : State W) : Prop := s.es = .idle ∧ s.mem.wf

/-- R23, R115: the register reset of START, for a machine whose `RESET_STATUS` is rs. Memory is unchanged. IR is
"unspecified" after it: the hidden latch is left as it stands, and nothing reads it (log 3). -/
def State.start (rs : BitVec 3) (s : State W) : State W :=
  { s with
    acc := 0
    pc := 0
    tos := BitVec.ofNat W Config.hiMem
    status := rs
    err := 0
    cause := .none
    es := .running }

/-- R113: the host's operations. An address is any integer: one outside 0..19 is not allowed. -/
inductive HostOp (W : Nat) where
  | loadCell (a : Int) (op : BitVec 4) (opd : Word W)
  | start
  | readCell (a : Int)
  | readRegs
  | readEs
  deriving DecidableEq, Repr

/-- R113: what an operation returns. -/
inductive HostReply (W : Nat) where
  | cell (op : BitVec 4) (opd : Word W)
  | regs (acc pc tos : Word W) (status : BitVec 3) (err : BitVec 1) (cause : BitVec 3)
  | es (code : BitVec 2)
  deriving DecidableEq, Repr

/-- R113: when an operation is allowed. -/
def hostAllowed (o : HostOp W) (s : State W) : Bool :=
  match o with
  | .loadCell a _ _ => s.es != .running && decide (0 ≤ a ∧ a ≤ (Config.hiMem : Int) - 1)
  | .start => s.es != .running
  | .readCell a => s.es != .running && decide (0 ≤ a ∧ a ≤ (Config.hiMem : Int) - 1)
  | .readRegs => s.es != .running
  | .readEs => true

/-- R113: the effect of an allowed operation on the state. -/
def hostEffect (rs : BitVec 3) (o : HostOp W) (s : State W) : State W :=
  match o with
  | .loadCell a op opd => s.loadCell a.toNat { op := op, opd := opd }
  | .start => s.start rs
  | .readCell _ => s
  | .readRegs => s
  | .readEs => s

/-- R113: what an allowed operation returns. LOAD_CELL and START return nothing. -/
def hostReply (o : HostOp W) (s : State W) : Option (HostReply W) :=
  match o with
  | .loadCell _ _ _ => none
  | .start => none
  | .readCell a => some (.cell (s.cellAt a.toNat).op (s.cellAt a.toNat).opd)
  | .readRegs => some (.regs s.acc s.pc s.tos s.status s.err s.cause.code)
  | .readEs => some (.es s.es.code)

/-- R113: one host operation on a machine whose `RESET_STATUS` is rs: the new state and the reply. An operation that is not
allowed "has no effect and returns nothing". -/
def hostOpWith (rs : BitVec 3) (o : HostOp W) (s : State W) : State W × Option (HostReply W) :=
  if hostAllowed o s then (hostEffect rs o s, hostReply o s) else (s, none)

/-- One host operation on the default machine. -/
def hostOp (o : HostOp Config.defaultWidth) (s : State) : State × Option (HostReply Config.defaultWidth) := hostOpWith Config.defaultResetStatus o s

/-- R114: LOAD_CELL of the cells of an image, from cell n on. -/
def loadImageFrom (rs : BitVec 3) : Nat → List (MemCell W) → State W → State W
  | _, [], s => s
  | n, c :: img, s => loadImageFrom rs (n + 1) img (hostOpWith rs (.loadCell n c.op c.opd) s).1

/-- R119, the boot order, on a machine whose `RESET_STATUS` is rs: load all 20 cells, make the pre-flight check, issue START.
An image that is not full, or that fails the check, is refused by name (U1, U13; R120 allows it; log 13). The START operation
itself checks nothing (R118).

A boot tried while ES = RUNNING is left open: R113 gives only the single operations, each then without effect. DESIGN CHOICE
(log 19), unsafe for a claim about such a boot: the loads and the START are without effect, and the check reads cell 0 of the
state directly, not by READ_CELL, so the answer, for a full image, is the unchanged state if the running engine's own cell 0
passes the check and `preflightFailed` if it does not, whatever the image holds. -/
def bootWith (rs : BitVec 3) (img : List (MemCell W)) (s : State W) : Result W :=
  if imageFull img then
    if preflightOk ((loadImageFrom rs 0 img s).cellAt 0) then .next (hostOpWith rs .start (loadImageFrom rs 0 img s)).1
    else .refused .preflightFailed
  else .refused .imageNotFull

/-- The boot order on the default machine. -/
def boot (img : List MemCell) (s : State) : Result := bootWith Config.defaultResetStatus img s

end Sys2Proof.Machine
end

