-- ==== Sys2Proof/Machine/Configured.lean ====
section
/-! DEFINITION. The engine of any configuration (spec/00_scope.md R6): the same meanings, fetch and host operations as the
default machine of Machine/Dispatch.lean and Machine/Step.lean, at the width and `RESET_STATUS` that the configuration gives.
Laws/Exec.lean proves that at the default configuration the two are one machine (`execAt_eq_exec`, `coreAt_default`). -/

namespace Sys2Proof.Machine

variable {W : Nat}

/-- R65 at every width: the opcode selects exactly one meaning. -/
def execAt (i : Instr W) (s : State W) : Result W :=
  match i with
  | .noneOp opd => execNone opd s
  | .lda addr => execLda addr s
  | .sta addr => execSta addr s
  | .ldaImm lit => execLdaImm lit s
  | .add addr => execAdd addr s
  | .jmp target => execJmp target s
  | .sub addr => execSub addr s
  | .cmpImm lit => execCmpImm lit s
  | .beq target => execBeq target s
  | .skp opd => execSkp opd s
  | .jsr target => execJsr target s
  | .rtn opd => execRtn opd s
  | .hlt opd => execHlt opd s
  | .err opd => execErr opd s
  | .reserved14 opd => execReserved14 opd s
  | .reserved15 opd => execReserved15 opd s

/-- R60: `Step()` at every width. -/
def stepAt (s : State W) : Result W := stepWith execAt s

/-- The machine of a configuration. -/
def coreAt (cfg : Config) : Host.Core where
  State := State cfg.dataWidth
  Fault := Fault
  Refusal := Refusal
  step := stepAt
  reset := State.resetAt cfg

/-- R113: one host operation on the machine of a configuration. -/
def hostOpAt (cfg : Config) (o : HostOp cfg.dataWidth) (s : State cfg.dataWidth) :
    State cfg.dataWidth × Option (HostReply cfg.dataWidth) :=
  hostOpWith cfg.resetStatus o s

/-- R119: the boot order on the machine of a configuration. -/
def bootAt (cfg : Config) (img : List (MemCell cfg.dataWidth)) (s : State cfg.dataWidth) : Result cfg.dataWidth :=
  bootWith cfg.resetStatus img s

end Sys2Proof.Machine
end

