-- ==== Sys2Proof/Safety.lean ====
section
/-! DEFINITION. What a run is, which states can occur, and the invariants the spec states of them, for every configuration. -/

namespace Sys2Proof.Machine

variable {W : Nat}

/-- What holds of the registers after any START: TOS in 0..20 (R22), STATUS legal (R21), ERR set exactly in HALTED_ERROR
(R26), CAUSE not NONE exactly in HALTED_ERROR (R27). -/
abbrev State.regsInv (s : State W) : Prop :=
  (0 ≤ s.tos.toInt ∧ s.tos.toInt ≤ (Config.hiMem : Int)) ∧ statusLegal s.status = true ∧
  (s.err = 1 ↔ s.es = .haltedError) ∧ (s.cause ≠ .none ↔ s.es = .haltedError)

/-- The invariant of the machine: the memory is in its canonical form, and once a START has happened (ES is not IDLE) the
registers meet `State.regsInv`. Before it they are unspecified (R112). -/
abbrev State.inv (s : State W) : Prop := s.mem.wf ∧ (s.es ≠ .idle → s.regsInv)

/-- The states that can occur on the machine of a configuration: from any power-on state, by host operations and engine
steps in any order. -/
inductive Reachable (cfg : Config) : State cfg.dataWidth → Prop
  | powerOn {s : State cfg.dataWidth} (h : s.powerOn) : Reachable cfg s
  | host {s : State cfg.dataWidth} (o : HostOp cfg.dataWidth) (h : Reachable cfg s) : Reachable cfg (hostOpAt cfg o s).1
  | step {s t : State cfg.dataWidth} (h : Reachable cfg s) (hs : stepAt s = .next t) : Reachable cfg t

/-- R116: the run is over: ES is HALTED_NORMAL or HALTED_ERROR. -/
abbrev State.halted (s : State W) : Prop := s.es = .haltedNormal ∨ s.es = .haltedError

/-- R116: the program executed HLT. -/
abbrev State.completed (s : State W) : Prop := s.es = .haltedNormal ∧ s.err = 0

/-- R68, R116: the state in which the run from s by the steps `next` ends, looked for with fuel; `none` means that the fuel
ran out, which is no outcome of the engine (D22). -/
def runToHaltWith (next : State W → Result W) : Nat → State W → Option (State W)
  | 0, s => if s.halted then some s else none
  | k + 1, s =>
    if s.halted then some s
    else
      match next s with
      | .next t => runToHaltWith next k t
      | .fault _ => none
      | .refused _ => none

/-- The end of a run of the default machine. -/
def runToHalt (k : Nat) (s : State) : Option State := runToHaltWith step k s

/-- The end of a run at every width. -/
def runToHaltAt (k : Nat) (s : State W) : Option (State W) := runToHaltWith stepAt k s

end Sys2Proof.Machine
end

