-- ==== Sys2Proof/Certificates/Slice0/Obligations.lean ====
section
/-! DEFINITION. The statements for the provers. Each docstring names the rule of spec/ that the statement formalises, or
says what it is derived from. -/

namespace Sys2Proof.Certificates.Slice0

open Sys2Proof Sys2Proof.Machine

/-- R96 at an instruction whose PC advance has happened: what every fault but FETCH_ADDRESS and ARITH_OVERFLOW leaves. -/
abbrev faultedPast {W : Nat} (c : Cause) (s : State W) : State W :=
  { s with pc := s.pc + 1, err := 1, cause := c, es := .haltedError }

/-- R30: the address word names one of the 20 cells. -/
abbrev inMemory {W : Nat} (a : Word W) : Prop := 0 ≤ a.toInt ∧ a.toInt ≤ 19

/-- The registers a fault writes are as they were. -/
abbrev noFaultIn {W : Nat} (s t : State W) : Prop := t.err = s.err ∧ t.cause = s.cause ∧ t.es = s.es

/-- The registers a fault writes tell the fault c. -/
abbrev faultIn {W : Nat} (c : Cause) (t : State W) : Prop := t.err = 1 ∧ t.cause = c ∧ t.es = .haltedError

end Sys2Proof.Certificates.Slice0

open Sys2Proof Sys2Proof.Machine Sys2Proof.Certificates.Slice0

/-! ### Encoding -/

/-- Derived from R45 and R46: an instruction's bits are one cell's, and decoding them gives the instruction back, with every
operand word; on the default machine's decoder of table words, and at every width W of R6. -/
def Obligations.DecodeOfEncode : Prop :=
  (∀ i : Instr, encodeBits i < 2 ^ Config.cellWidth ∧
    decodeTableWord Config.cellWidth (encodeBits i) = some i) ∧
  ∀ (W : Nat) (i : Instr W), decodeCell (encode i) = i ∧
    encodeBits i < 2 ^ Config.cellWidthAt W ∧ decodeBits (encodeBits i) = .ok i

/-- Derived from R45, R46 and R49: every number of W + 4 bits is the bits of exactly one instruction, the one decoded from
it. -/
def Obligations.EncodeOfDecode : Prop :=
  ∀ w : Nat, w < 2 ^ Config.cellWidth →
    ∃ i, decodeTableWord Config.cellWidth w = some i ∧ encodeBits i = w ∧ ∀ j, encodeBits j = w → j = i

/-- R49: the 4-bit field alone selects the instruction, a row for each of its 16 values; the operand is carried whole and no
value of it is illegal; at every width. -/
def Obligations.OpAloneSelectsInstruction : Prop :=
  ∀ (W : Nat) (c d : MemCell W), (decodeCell c).opcode = c.op ∧
    ((decodeCell c).opcode = (decodeCell d).opcode ↔ c.op = d.op) ∧
    (decodeCell c).operand = c.opd ∧ (decodeCell c).wellFormed = true

/-- Derived from R45: a cell is `op ++ opd`, with `op` in the high bits, and the two directions agree; at every width. -/
def Obligations.CellLayout : Prop :=
  ∀ (W : Nat) (c : MemCell W), cellBits c = (c.op ++ c.opd).toNat ∧ cellOfBits (cellBits c) = c

/-- R46 on one word for each opcode value, the words of spec/95_test_vectors.md. -/
def Obligations.SpecWordsDecode : Prop :=
  decodeTableWord 36 0x00000000A = some (.noneOp 10) ∧ decodeTableWord 36 0x100000004 = some (.lda 4) ∧
  decodeTableWord 36 0x20000000B = some (.sta 11) ∧ decodeTableWord 36 0x3FFFFFF38 = some (.ldaImm (-200)) ∧
  decodeTableWord 36 0x400000004 = some (.add 4) ∧ decodeTableWord 36 0x500000001 = some (.jmp 1) ∧
  decodeTableWord 36 0x600000010 = some (.sub 16) ∧ decodeTableWord 36 0x7FFFFFFFF = some (.cmpImm (-1)) ∧
  decodeTableWord 36 0x80000000D = some (.beq 13) ∧ decodeTableWord 36 0x900000003 = some (.skp 3) ∧
  decodeTableWord 36 0xA00000005 = some (.jsr 5) ∧ decodeTableWord 36 0xB0000004D = some (.rtn 77) ∧
  decodeTableWord 36 0xC00000063 = some (.hlt 99) ∧ decodeTableWord 36 0xD00000000 = some (.err 0) ∧
  decodeTableWord 36 0xE00000000 = some (.reserved14 0) ∧ decodeTableWord 36 0xF00000003 = some (.reserved15 3)

/-- Derived from R47 and D23: where the operand is ignored or not executed, its value makes no difference. -/
def Obligations.UnusedOperandMakesNoDifference : Prop :=
  ∀ (i j : Instr) (s : State), (operandUse i = .ignored ∨ operandUse i = .notExecuted) → i.opcode = j.opcode →
    exec i s = exec j s

/-! ### The step -/

/-- R62, R65, with R60's order: a running engine whose PC is valid latches the cell at PC into IR and runs the decoded
instruction, which begins with the PC advance (R64) unless it is HLT (R63). -/
def Obligations.StepRunsFetchedInstruction : Prop :=
  ∀ s : State, s.es = .running → inMemory s.pc →
    step s = exec (decodeCell (s.cellAt (cellIndex s.pc))) { s with ir := s.cellAt (cellIndex s.pc) }

/-- R61: a running engine whose PC is not valid raises FETCH_ADDRESS, and nothing else changes. -/
def Obligations.FetchOutsideMemoryFaults : Prop :=
  ∀ s : State, s.es = .running → ¬ inMemory s.pc →
    step s = .next { s with err := 1, cause := .fetchAddress, es := .haltedError }

/-- R58: no step in IDLE, HALTED_NORMAL and HALTED_ERROR. -/
def Obligations.NoStepUnlessRunning : Prop :=
  ∀ s : State,
    (s.es = .idle → step s = .fault .noStepIdle) ∧
    (s.es = .haltedNormal → step s = .fault .noStepHaltedNormal) ∧
    (s.es = .haltedError → step s = .fault .noStepHaltedError)

/-- R57: the transitions between the engine states, in states that meet the invariant. -/
def Obligations.EngineStateTransitions : Prop :=
  (∀ s t : State, s.inv → step s = .next t →
    s.es = .running ∧ t.es ≠ .idle ∧
    (t.es = .haltedNormal ↔ inMemory s.pc ∧ (s.cellAt (cellIndex s.pc)).op = 0b1100) ∧
    (t.es = .haltedError ↔ t.cause ≠ .none)) ∧
  (∀ (rs : BitVec 3) (s : State), s.es ≠ .running → (hostOpWith rs .start s).1.es = .running)

/-- R124: a running engine that meets the invariant has a next state. -/
def Obligations.RunningEngineAlwaysSteps : Prop :=
  ∀ s : State, s.inv → s.es = .running → ∃ t, step s = .next t

/-- Derived from R24: what IR held before a step makes no difference to it, nor to what the host is told. -/
def Obligations.OldIrIsNeverRead : Prop :=
  (∀ (s : State) (c : MemCell), s.es = .running → inMemory s.pc → step { s with ir := c } = step s) ∧
  (∀ (rs : BitVec 3) (o : HostOp Config.defaultWidth) (s : State) (c : MemCell),
    (hostOpWith rs o { s with ir := c }).2 = (hostOpWith rs o s).2)

/-- Derived from R42: the next step runs a cell with the operand an STA has just written, and the cell's own opcode. -/
def Obligations.StoreSeenByNextFetch : Prop :=
  ∀ (s t : State) (a : Word), s.mem.wf → s.es = .running → inMemory s.pc → inMemory a →
    s.cellAt (cellIndex s.pc) = { op := 0b0010, opd := a } → step s = .next t → t.pc = a →
    step t = exec (decodeCell { op := (s.cellAt (cellIndex a)).op, opd := s.acc })
      { t with ir := { op := (s.cellAt (cellIndex a)).op, opd := s.acc } }

/-- Derived from R24: a JSR whose push lands on its own cell still jumps to the operand it was fetched with. -/
def Obligations.PushOnOwnCellKeepsTarget : Prop :=
  ∀ (s : State) (target : Word), s.mem.wf → s.es = .running → inMemory s.pc →
    s.cellAt (cellIndex s.pc) = { op := 0b1010, opd := target } → s.tos = s.pc + 1 →
    ∃ t, step s = .next t ∧ t.pc = target ∧ t.tos = s.pc ∧
      t.cellAt (cellIndex s.pc) = { op := 0b1010, opd := s.pc + 1 }

/-- Derived from R82, R83, R84, R89: a jump, a taken branch or a call to a target outside 0..19 is no fault; the next step is,
with PC at the target. -/
def Obligations.BadTargetFaultsAtNextFetch : Prop :=
  ∀ (s t : State) (i : Instr) (target : Word), s.inv → s.es = .running → ¬ inMemory target →
    (i = .jmp target ∨ (i = .beq target ∧ s.status = 0b100) ∨ (i = .jsr target ∧ 0 < s.tos.toInt)) →
    exec i s = .next t →
    t.es = .running ∧ t.pc = target ∧
    step t = .next { t with err := 1, cause := .fetchAddress, es := .haltedError }

/-- Derived from R68 and R82: a JMP to itself runs for ever. -/
def Obligations.JumpToItselfNeverEnds : Prop :=
  ∀ (s : State) (n : Nat), s.es = .running → inMemory s.pc →
    s.cellAt (cellIndex s.pc) = { op := 0b0101, opd := s.pc } →
    runToHalt n s = none ∧
    ∃ t : State, Host.Core.run Sys2Proof.core n s = .next t ∧ t.es = .running ∧ t.pc = s.pc ∧ t.mem = s.mem

/-! ### Invariants -/

/-- Derived from R21, R22, R26, R27 and R28: every step keeps the invariant. With R6 and R7: so does every step
of the engine of any legal width, and the default machine's step is that engine's. -/
def Obligations.StepKeepsInvariant : Prop :=
  (∀ s t : State, s.inv → step s = .next t → t.inv) ∧
  (∀ W : Nat, 9 ≤ W → ∀ s t : State W, s.inv → stepAt s = .next t → t.inv) ∧
  ∀ s : State, stepAt s = step s

/-- Derived from R23: the machine after reset meets the invariant, the default one and that of every configuration
R6 and R7 allow. -/
def Obligations.ResetMeetsInvariant : Prop :=
  State.reset.inv ∧ ∀ cfg : Config, cfg.wellFormed = true → (State.resetAt cfg).inv

/-- Derived from R21, R22, R26, R27: every state that can occur meets the invariant, from any power-on values, through any
host operations and steps, for every configuration: every W from 9 up and every legal `RESET_STATUS` (R6, R7, D19). -/
def Obligations.ReachableStatesMeetInvariant : Prop :=
  ∀ cfg : Config, cfg.wellFormed = true → ∀ s : State cfg.dataWidth, Reachable cfg s → s.inv

/-- R21: STATUS is one of the four legal values in every state that can occur once a START has written it (before it, R112
leaves STATUS unspecified), on the machine of every configuration with a legal `RESET_STATUS`; SetFlags writes one of them, at
every width; the default `RESET_STATUS` is one. -/
def Obligations.StatusAlwaysLegal : Prop :=
  (∀ (cfg : Config) (s : State cfg.dataWidth),
    (cfg.resetStatus = 0b000 ∨ cfg.resetStatus = 0b001 ∨ cfg.resetStatus = 0b010 ∨ cfg.resetStatus = 0b100) →
    Reachable cfg s → s.es ≠ .idle →
    (s.status = 0b000 ∨ s.status = 0b001 ∨ s.status = 0b010 ∨ s.status = 0b100)) ∧
  (∀ (w : Nat) (v : BitVec w), flagsOf v = 0b000 ∨ flagsOf v = 0b001 ∨ flagsOf v = 0b010 ∨ flagsOf v = 0b100) ∧
  (Config.default.resetStatus = 0b000 ∨ Config.default.resetStatus = 0b001 ∨
    Config.default.resetStatus = 0b010 ∨ Config.default.resetStatus = 0b100)

/-- Derived from R6, R23 and R115, with the model's choices: IR (log 3), memory that nothing has loaded (log 4), ES already
RUNNING (log 6). The first clause is the default machine (`RESET_STATUS` at its default: log 2), the second the machine of any
configuration wide enough. -/
def Obligations.ResetState : Prop :=
  State.reset.acc = 0 ∧ State.reset.pc = 0 ∧ State.reset.tos.toInt = 20 ∧ State.reset.status = 0b000 ∧
  State.reset.err = 0 ∧ State.reset.cause = .none ∧ State.reset.es = .running ∧
  State.reset.ir = { op := 0, opd := 0 } ∧ (∀ n, State.reset.cellAt n = { op := 0, opd := 0 }) ∧
  ∀ cfg : Config, 9 ≤ cfg.dataWidth →
    (State.resetAt cfg).acc = 0 ∧ (State.resetAt cfg).pc = 0 ∧ (State.resetAt cfg).tos.toInt = 20 ∧
    (State.resetAt cfg).status = cfg.resetStatus ∧ (State.resetAt cfg).err = 0 ∧ (State.resetAt cfg).cause = .none ∧
    (State.resetAt cfg).es = .running ∧ (State.resetAt cfg).ir = { op := 0, opd := 0 } ∧
    ∀ n, (State.resetAt cfg).cellAt n = { op := 0, opd := 0 }

/-! ### Flags and arithmetic -/

/-- R74, R75: the value SetFlags writes, for a word of any width. -/
def Obligations.FlagPriority : Prop :=
  ∀ (w : Nat) (v : BitVec w),
    (v.toInt = 0 → flagsOf v = 0b100) ∧ (v.toInt < 0 → flagsOf v = 0b010) ∧
    (1 ≤ v.toInt ∧ v.toInt ≤ 127 → flagsOf v = 0b000) ∧ (128 ≤ v.toInt → flagsOf v = 0b001) ∧
    (flagsOf v = 0b001 ↔ 127 < v.toInt)

/-- Derived from R9 and R80: sums and differences are the exact ones of the signed operands, reduced modulo 2^W, and are exact
where they fit, at every width. -/
def Obligations.SignedArithmetic : Prop :=
  ∀ (w : Nat) (a b : BitVec w), 0 < w →
    addW a b = a + b ∧ subW a b = a - b ∧
    (∃ k : Int, (addW a b).toInt = a.toInt + b.toInt + k * 2 ^ w) ∧
    (∃ k : Int, (subW a b).toInt = a.toInt - b.toInt + k * 2 ^ w) ∧
    (-(2 ^ (w - 1)) ≤ a.toInt + b.toInt ∧ a.toInt + b.toInt < 2 ^ (w - 1) → (addW a b).toInt = a.toInt + b.toInt) ∧
    (-(2 ^ (w - 1)) ≤ a.toInt - b.toInt ∧ a.toInt - b.toInt < 2 ^ (w - 1) → (subW a b).toInt = a.toInt - b.toInt)

/-- Derived from R6, R7, R77 and R78: at every allowed width 127 + 1 is 128 with V, and -128 - 1 is -129 with N; and
on the engine of that width an ADD of 1 to 127 leaves 128 in ACC and faults, a SUB of 1 from -128 leaves -129 and goes on. -/
def Obligations.NineBitsHoldTheOverflow : Prop :=
  ∀ w : Nat, 9 ≤ w →
    (addW (127 : BitVec w) 1).toInt = 128 ∧ flagsOf (addW (127 : BitVec w) 1) = 0b001 ∧
    (subW (-128 : BitVec w) 1).toInt = -129 ∧ flagsOf (subW (-128 : BitVec w) 1) = 0b010 ∧
    ∀ (a : Word w) (s : State w), inMemory a → (s.cellAt (cellIndex a)).opd = 1 →
      (s.acc = 127 → ∃ t, execAt (.add a) s = .next t ∧ t.acc.toInt = 128 ∧ t.status = 0b001 ∧ faultIn .arithOverflow t) ∧
      (s.acc = -128 → ∃ t, execAt (.sub a) s = .next t ∧ t.acc.toInt = -129 ∧ t.status = 0b010 ∧ noFaultIn s t)

/-- R81: ADD and SUB fault exactly when the signed value of the new ACC is above 127; below -128 they do not. -/
def Obligations.OverflowIsResultAbove127 : Prop :=
  ∀ (a : Word) (s t : State), inMemory a → s.cause = .none →
    (exec (.add a) s = .next t ∨ exec (.sub a) s = .next t) →
    (t.cause = .arithOverflow ↔ 127 < t.acc.toInt) ∧ (t.acc.toInt < -128 → t.cause = .none ∧ t.status = 0b010)

/-- Derived from R76, R79 and R83: a BEQ right after a CMP# branches exactly when ACC equals the literal. -/
def Obligations.CompareThenBranch : Prop :=
  ∀ (s : State) (lit target : Word), ∃ t, exec (.cmpImm lit) s = .next t ∧
    exec (.beq target) t = .next { t with pc := if s.acc = lit then target else s.pc + 1 + 1 }

/-! ### What each instruction does -/

/-- R71: LDA. -/
def Obligations.LdaResult : Prop :=
  ∀ (addr : Word) (s : State),
    encode (.lda addr) = { op := 0b0001, opd := addr } ∧
    (inMemory addr → exec (.lda addr) s = .next { s with
      pc := s.pc + 1
      acc := (s.cellAt (cellIndex addr)).opd
      status := flagsOf (s.cellAt (cellIndex addr)).opd }) ∧
    (¬ inMemory addr → exec (.lda addr) s = .next (faultedPast .dataAddress s))

/-- R72: STA. Memory is in its canonical form, as in every state that can occur. -/
def Obligations.StaResult : Prop :=
  ∀ (addr : Word) (s : State), s.mem.wf →
    encode (.sta addr) = { op := 0b0010, opd := addr } ∧
    (inMemory addr → ∃ t, exec (.sta addr) s = .next t ∧
      t.cellAt (cellIndex addr) = { op := (s.cellAt (cellIndex addr)).op, opd := s.acc } ∧
      (∀ n, n ≠ cellIndex addr → t.cellAt n = s.cellAt n) ∧
      t = { s with pc := s.pc + 1, mem := t.mem }) ∧
    (¬ inMemory addr → exec (.sta addr) s = .next (faultedPast .dataAddress s))

/-- R73: LDA#. -/
def Obligations.LdaImmResult : Prop :=
  ∀ (lit : Word) (s : State),
    encode (.ldaImm lit) = { op := 0b0011, opd := lit } ∧
    exec (.ldaImm lit) s = .next { s with pc := s.pc + 1, acc := lit, status := flagsOf lit }

/-- R77: ADD. -/
def Obligations.AddResult : Prop :=
  ∀ (addr sum : Word) (s : State), sum = s.acc + (s.cellAt (cellIndex addr)).opd →
    encode (.add addr) = { op := 0b0100, opd := addr } ∧
    (inMemory addr → sum.toInt ≤ 127 →
      exec (.add addr) s = .next { s with pc := s.pc + 1, acc := sum, status := flagsOf sum }) ∧
    (inMemory addr → 127 < sum.toInt →
      exec (.add addr) s = .next { faultedPast .arithOverflow s with acc := sum, status := 0b001 }) ∧
    (¬ inMemory addr → exec (.add addr) s = .next (faultedPast .dataAddress s))

/-- R78: SUB. -/
def Obligations.SubResult : Prop :=
  ∀ (addr diff : Word) (s : State), diff = s.acc - (s.cellAt (cellIndex addr)).opd →
    encode (.sub addr) = { op := 0b0110, opd := addr } ∧
    (inMemory addr → diff.toInt ≤ 127 →
      exec (.sub addr) s = .next { s with pc := s.pc + 1, acc := diff, status := flagsOf diff }) ∧
    (inMemory addr → 127 < diff.toInt →
      exec (.sub addr) s = .next { faultedPast .arithOverflow s with acc := diff, status := 0b001 }) ∧
    (¬ inMemory addr → exec (.sub addr) s = .next (faultedPast .dataAddress s))

/-- R79: CMP#. -/
def Obligations.CmpImmResult : Prop :=
  ∀ (lit : Word) (s : State),
    encode (.cmpImm lit) = { op := 0b0111, opd := lit } ∧
    exec (.cmpImm lit) s = .next { s with pc := s.pc + 1, status := flagsOf (s.acc - lit) }

/-- R82: JMP. -/
def Obligations.JmpResult : Prop :=
  ∀ (target : Word) (s : State),
    encode (.jmp target) = { op := 0b0101, opd := target } ∧
    exec (.jmp target) s = .next { s with pc := target }

/-- R83: BEQ tests bit 2 of STATUS. -/
def Obligations.BeqResult : Prop :=
  ∀ (target : Word) (s : State),
    encode (.beq target) = { op := 0b1000, opd := target } ∧
    exec (.beq target) s = .next { s with pc := if s.status.getLsbD 2 then target else s.pc + 1 }

/-- R84: JSR, for every TOS up to 20, as in every run (R22). Memory is in its canonical form. -/
def Obligations.JsrResult : Prop :=
  ∀ (target : Word) (s : State), s.mem.wf →
    encode (.jsr target) = { op := 0b1010, opd := target } ∧
    (1 ≤ s.tos.toInt ∧ s.tos.toInt ≤ 20 → ∃ t, exec (.jsr target) s = .next t ∧
      t.cellAt (cellIndex (s.tos - 1)) = { op := (s.cellAt (cellIndex (s.tos - 1))).op, opd := s.pc + 1 } ∧
      (∀ n, n ≠ cellIndex (s.tos - 1) → t.cellAt n = s.cellAt n) ∧
      t = { s with pc := target, tos := s.tos - 1, mem := t.mem }) ∧
    (s.tos.toInt ≤ 0 → exec (.jsr target) s = .next (faultedPast .stackOverflow s))

/-- R85: RTN, for every TOS from 0 on, as in every run (R22). -/
def Obligations.RtnResult : Prop :=
  ∀ (opd : Word) (s : State),
    encode (.rtn opd) = { op := 0b1011, opd := opd } ∧
    (0 ≤ s.tos.toInt ∧ s.tos.toInt ≤ 19 →
      exec (.rtn opd) s = .next { s with pc := (s.cellAt (cellIndex s.tos)).opd, tos := s.tos + 1 }) ∧
    (20 ≤ s.tos.toInt → exec (.rtn opd) s = .next (faultedPast .stackUnderflow s))

/-- The model's choice (log 9), for values of TOS that R22 says no run reaches: the stack cell does not exist, and the model
stops by name. -/
def Obligations.StackCellOutsideMemoryStops : Prop :=
  ∀ (v : Word) (s : State),
    (20 < s.tos.toInt → exec (.jsr v) s = .fault .stackCellMissing) ∧
    (s.tos.toInt < 0 → exec (.rtn v) s = .fault .stackCellMissing)

/-- R90, R92: SKP and none do nothing but advance PC. -/
def Obligations.NoOperationResult : Prop :=
  ∀ (opd : Word) (s : State),
    encode (.skp opd) = { op := 0b1001, opd := opd } ∧ encode (.noneOp opd) = { op := 0b0000, opd := opd } ∧
    exec (.skp opd) s = .next { s with pc := s.pc + 1 } ∧ exec (.noneOp opd) s = .next { s with pc := s.pc + 1 }

/-- R91: HLT sets ES to HALTED_NORMAL and leaves PC at its own address. -/
def Obligations.HltResult : Prop :=
  ∀ (opd : Word) (s : State),
    encode (.hlt opd) = { op := 0b1100, opd := opd } ∧
    exec (.hlt opd) s = .next { s with es := .haltedNormal }

/-- R93, R94: ERR and the reserved opcodes raise ILLEGAL_OPCODE past the PC advance. -/
def Obligations.IllegalOpcodeResult : Prop :=
  ∀ (opd : Word) (s : State),
    encode (.err opd) = { op := 0b1101, opd := opd } ∧ encode (.reserved14 opd) = { op := 0b1110, opd := opd } ∧
    encode (.reserved15 opd) = { op := 0b1111, opd := opd } ∧
    exec (.err opd) s = .next (faultedPast .illegalOpcode s) ∧
    exec (.reserved14 opd) s = .next (faultedPast .illegalOpcode s) ∧
    exec (.reserved15 opd) s = .next (faultedPast .illegalOpcode s)

/-! ### Frames -/

/-- Derived from R71, R73, R77, R78: LDA, LDA#, ADD and SUB write ACC, STATUS and PC, and besides them only what their faults
write. -/
def Obligations.AccumulatorInstructionFrame : Prop :=
  ∀ (i : Instr) (v : Word) (s t : State), (i = .lda v ∨ i = .ldaImm v ∨ i = .add v ∨ i = .sub v) → exec i s = .next t →
    t.tos = s.tos ∧ t.ir = s.ir ∧ (∀ n, t.cellAt n = s.cellAt n) ∧
    (noFaultIn s t ∨ (faultIn .dataAddress t ∧ t.acc = s.acc ∧ t.status = s.status) ∨ faultIn .arithOverflow t)

/-- Derived from R79, R82, R83, R90, R92: CMP# writes STATUS and PC; JMP, BEQ, SKP and none write PC alone. -/
def Obligations.PcAndFlagInstructionFrame : Prop :=
  ∀ (i : Instr) (v : Word) (s t : State),
    (i = .cmpImm v ∨ i = .jmp v ∨ i = .beq v ∨ i = .skp v ∨ i = .noneOp v) → exec i s = .next t →
    t.acc = s.acc ∧ t.tos = s.tos ∧ t.ir = s.ir ∧ noFaultIn s t ∧ (∀ n, t.cellAt n = s.cellAt n) ∧
    (i ≠ .cmpImm v → t.status = s.status)

/-- Derived from R72: STA writes PC and the operand of the one cell it names, and besides them only what its fault writes. -/
def Obligations.StoreFrame : Prop :=
  ∀ (addr : Word) (s t : State), exec (.sta addr) s = .next t →
    t.acc = s.acc ∧ t.tos = s.tos ∧ t.status = s.status ∧ t.ir = s.ir ∧
    (noFaultIn s t ∨ (faultIn .dataAddress t ∧ t.mem = s.mem)) ∧
    ∀ n, n ≠ cellIndex addr → t.cellAt n = s.cellAt n

/-- Derived from R84, R85: JSR writes PC, TOS and the operand of the cell it pushes to; RTN writes PC and TOS; besides them
only what their faults write. -/
def Obligations.CallAndReturnFrame : Prop :=
  ∀ (v : Word) (s t : State),
    (exec (.jsr v) s = .next t →
      t.acc = s.acc ∧ t.status = s.status ∧ t.ir = s.ir ∧
      (noFaultIn s t ∨ (faultIn .stackOverflow t ∧ t.tos = s.tos ∧ t.mem = s.mem)) ∧
      ∀ n, n ≠ cellIndex (decW s.tos) → t.cellAt n = s.cellAt n) ∧
    (exec (.rtn v) s = .next t →
      t.acc = s.acc ∧ t.status = s.status ∧ t.ir = s.ir ∧
      (noFaultIn s t ∨ (faultIn .stackUnderflow t ∧ t.tos = s.tos)) ∧ ∀ n, t.cellAt n = s.cellAt n)

/-- Derived from R91, R93, R94: HLT writes ES alone; ERR and the reserved opcodes write PC and what their fault writes. -/
def Obligations.StoppingInstructionFrame : Prop :=
  ∀ (i : Instr) (v : Word) (s t : State),
    (i = .hlt v ∨ i = .err v ∨ i = .reserved14 v ∨ i = .reserved15 v) → exec i s = .next t →
    t.acc = s.acc ∧ t.tos = s.tos ∧ t.status = s.status ∧ t.ir = s.ir ∧ (∀ n, t.cellAt n = s.cellAt n) ∧
    (i = .hlt v → t.pc = s.pc ∧ t.err = s.err ∧ t.cause = s.cause) ∧ (i ≠ .hlt v → faultIn .illegalOpcode t)

/-- Derived from R17, R20, R22 and R26: which instructions may write ACC, STATUS and TOS; ERR changes only to 1, in a fault; no
instruction writes IR. -/
def Obligations.RegisterWriters : Prop :=
  ∀ (i : Instr) (s t : State), exec i s = .next t →
    (t.acc ≠ s.acc → i.opcode ∈ ([0b0001, 0b0011, 0b0100, 0b0110] : List (BitVec 4))) ∧
    (t.status ≠ s.status → i.opcode ∈ ([0b0001, 0b0011, 0b0100, 0b0110, 0b0111] : List (BitVec 4))) ∧
    (t.tos ≠ s.tos → i.opcode ∈ ([0b1010, 0b1011] : List (BitVec 4))) ∧
    (t.err ≠ s.err → t.err = 1 ∧ t.es = .haltedError) ∧ t.ir = s.ir

/-- Derived from R18, R19, R63 and R64: PC does not wrap; HLT leaves it; every instruction but the jumps leaves it advanced by 1,
in a fault too. -/
def Obligations.PcAdvance : Prop :=
  ∀ (i : Instr) (s t : State), inMemory s.pc → exec i s = .next t →
    (i.opcode = 0b1100 → t.pc = s.pc) ∧
    (i.opcode ∉ ([0b0101, 0b1000, 0b1010, 0b1011, 0b1100] : List (BitVec 4)) → t.pc.toInt = s.pc.toInt + 1)

/-! ### Memory -/

/-- Derived from R32: no step writes the opcode of any cell. -/
def Obligations.StepsNeverWriteOpcodes : Prop :=
  ∀ s t : State, s.mem.wf → step s = .next t → ∀ n, (t.cellAt n).op = (s.cellAt n).op

/-- Derived from R31: a cell changes only as the target of an STA or of a JSR's push. -/
def Obligations.MemoryWriters : Prop :=
  ∀ (i : Instr) (s t : State) (n : Nat), exec i s = .next t → t.cellAt n ≠ s.cellAt n →
    (i.opcode = 0b0010 ∧ n = cellIndex i.operand) ∨ (i.opcode = 0b1010 ∧ n = cellIndex (decW s.tos))

/-- The model's form of memory (log 4, log 5): two memories in canonical form that read alike are equal. -/
def Obligations.EqualReadsEqualMemories : Prop :=
  ∀ m k : Memory, m.wf → k.wf → (∀ n, m.cellAt n = k.cellAt n) → m = k

/-! ### The stack -/

/-- R88: JSR, then anything that leaves TOS and the return address as the JSR left them, then RTN; and the push writes no cell
below the stack top. -/
def Obligations.CallReturnRoundTrip : Prop :=
  ∀ (s u v : State) (target opd : Word), s.mem.wf → 1 ≤ s.tos.toInt → s.tos.toInt ≤ 20 →
    exec (.jsr target) s = .next u → v.tos = u.tos →
    (v.cellAt (cellIndex v.tos)).opd = (u.cellAt (cellIndex u.tos)).opd →
    exec (.rtn opd) v = .next { v with pc := s.pc + 1, tos := s.tos } ∧
    ∀ n, n < cellIndex u.tos → u.cellAt n = s.cellAt n

/-! ### Faults -/

/-- Derived from R97, its column "when": the steps that raise each cause, from a running state that meets the invariant. -/
def Obligations.FaultCauses : Prop :=
  ∀ (s t : State) (c : MemCell) (m : Word), s.inv → s.es = .running → step s = .next t →
    c = s.cellAt (cellIndex s.pc) → m = (s.cellAt (cellIndex c.opd)).opd →
    (t.cause = .fetchAddress ↔ ¬ inMemory s.pc) ∧
    (t.cause = .illegalOpcode ↔ inMemory s.pc ∧ (c.op = 0b1101 ∨ c.op = 0b1110 ∨ c.op = 0b1111)) ∧
    (t.cause = .dataAddress ↔
      inMemory s.pc ∧ (c.op = 0b0001 ∨ c.op = 0b0010 ∨ c.op = 0b0100 ∨ c.op = 0b0110) ∧ ¬ inMemory c.opd) ∧
    (t.cause = .stackOverflow ↔ inMemory s.pc ∧ c.op = 0b1010 ∧ s.tos.toInt = 0) ∧
    (t.cause = .stackUnderflow ↔ inMemory s.pc ∧ c.op = 0b1011 ∧ s.tos.toInt = 20) ∧
    (t.cause = .arithOverflow ↔ inMemory s.pc ∧ inMemory c.opd ∧
      ((c.op = 0b0100 ∧ 127 < (s.acc + m).toInt) ∨ (c.op = 0b0110 ∧ 127 < (s.acc - m).toInt)))

/-- R96, R100: what a fault leaves for the observer, by a step from a running state that meets the invariant; and R97's remark
that the faulting cell can be found below PC. -/
def Obligations.FaultsArePrecise : Prop :=
  ∀ s t : State, s.inv → s.es = .running → step s = .next t → t.es = .haltedError →
    t.err = 1 ∧ t.cause ≠ .none ∧ t.tos = s.tos ∧ (∀ n, t.cellAt n = s.cellAt n) ∧
    (t.cause = .fetchAddress → t = { s with err := 1, cause := .fetchAddress, es := .haltedError }) ∧
    (t.cause ≠ .fetchAddress → t.pc.toInt = s.pc.toInt + 1 ∧
      t.cellAt (cellIndex (t.pc - 1)) = s.cellAt (cellIndex s.pc)) ∧
    (t.cause ≠ .arithOverflow → t.acc = s.acc ∧ t.status = s.status) ∧
    (t.cause = .arithOverflow → 127 < t.acc.toInt ∧ t.status = 0b001)

/-! ### The host -/

/-- Derived from R113 and R117: the five operations: when each is allowed, what it does and what it returns; one that is not
allowed does nothing and returns nothing, so that while ES = RUNNING the host changes nothing and reads ES alone. The START
clause also says that IR is as it was: that is the model's choice (log 3, DESIGN CHOICE), since R23 leaves IR unspecified. -/
def Obligations.HostOperations : Prop :=
  ∀ (rs : BitVec 3) (s : State) (a : Int) (op : BitVec 4) (opd : Word), s.mem.wf →
    (s.es ≠ .running → 0 ≤ a → a ≤ 19 →
      (hostOpWith rs (.loadCell a op opd) s).2 = none ∧
      (hostOpWith rs (.loadCell a op opd) s).1 = { s with mem := (hostOpWith rs (.loadCell a op opd) s).1.mem } ∧
      (hostOpWith rs (.loadCell a op opd) s).1.cellAt a.toNat = { op := op, opd := opd } ∧
      (∀ n, n ≠ a.toNat → (hostOpWith rs (.loadCell a op opd) s).1.cellAt n = s.cellAt n) ∧
      hostOpWith rs (.readCell a) s = (s, some (.cell (s.cellAt a.toNat).op (s.cellAt a.toNat).opd))) ∧
    (s.es ≠ .running →
      hostOpWith rs .start s =
        ({ s with acc := 0, pc := 0, tos := 20, status := rs, err := 0, cause := .none, es := .running }, none) ∧
      hostOpWith rs .readRegs s = (s, some (.regs s.acc s.pc s.tos s.status s.err s.cause.code))) ∧
    hostOpWith rs .readEs s = (s, some (.es s.es.code)) ∧
    (s.es = .running ∨ a < 0 ∨ 19 < a →
      hostOpWith rs (.loadCell a op opd) s = (s, none) ∧ hostOpWith rs (.readCell a) s = (s, none)) ∧
    (s.es = .running → hostOpWith rs .start s = (s, none) ∧ hostOpWith rs .readRegs s = (s, none))

/-- Derived from R23 and R115: START resets the registers, leaves memory, and the first step runs cell 0. That IR is as it was
after START is the model's choice (log 3, DESIGN CHOICE): R23 leaves it unspecified. -/
def Obligations.StartThenFirstStep : Prop :=
  ∀ (rs : BitVec 3) (s : State), s.es ≠ .running → ∃ t, hostOpWith rs .start s = (t, none) ∧
    t = { s with acc := 0, pc := 0, tos := 20, status := rs, err := 0, cause := .none, es := .running } ∧
    step t = exec (decodeCell (s.cellAt 0)) { t with ir := s.cellAt 0 }

/-- Derived from R118: the engine makes no pre-flight check. A started image with ERR at cell 0 faults in its first step, with
(none, 0) there runs on from cell 1, with (JMP, 0) there stays at cell 0. -/
def Obligations.StartMakesNoPreflightCheck : Prop :=
  ∀ (rs : BitVec 3) (s t : State), s.es ≠ .running → t = (hostOpWith rs .start s).1 →
    ((s.cellAt 0).op = 0b1101 →
      ∃ u, step t = .next u ∧ u.es = .haltedError ∧ u.err = 1 ∧ u.cause = .illegalOpcode ∧ u.pc = 1) ∧
    (s.cellAt 0 = { op := 0b0000, opd := 0 } → ∃ u, step t = .next u ∧ u.es = .running ∧ u.pc = 1) ∧
    (s.cellAt 0 = { op := 0b0101, opd := 0 } → ∃ u, step t = .next u ∧ u.es = .running ∧ u.pc = 0)

/-- Derived from R76, R83 and D19: a BEQ in the first step tests `RESET_STATUS`; on the default machine with any value
of it, and on the machine of every configuration wide enough. -/
def Obligations.ResetStatusDecidesFirstBranch : Prop :=
  (∀ (rs : BitVec 3) (s : State) (target : Word), s.es ≠ .running → s.cellAt 0 = { op := 0b1000, opd := target } →
    ∃ u, step (hostOpWith rs .start s).1 = .next u ∧ u.pc = if rs.getLsbD 2 then target else 1) ∧
  ∀ (cfg : Config) (s : State cfg.dataWidth) (target : Word cfg.dataWidth), 9 ≤ cfg.dataWidth → s.es ≠ .running →
    s.cellAt 0 = { op := 0b1000, opd := target } →
    ∃ u, stepAt (hostOpAt cfg .start s).1 = .next u ∧ u.pc = if cfg.resetStatus.getLsbD 2 then target else 1

/-- Derived from R114, R115, R118, R119: booting a full image that passes the pre-flight check gives the memory of the image and
the registers of START on the default machine. The model's choices in it: IR is as it was before the START, where R23 leaves it
unspecified (log 3, DESIGN CHOICE), and STATUS is the default `RESET_STATUS`, for which `boot` stands (log 2, DESIGN CHOICE). -/
def Obligations.BootLoadsImage : Prop :=
  ∀ (img : List MemCell) (s : State), s.mem.wf → s.es ≠ .running → img.length = 20 →
    (∀ c, img[0]? = some c → c.op ≠ 0b1101 ∧ c.opd ≠ 0) →
    ∃ t, boot img s = .next t ∧ (∀ n, n < 20 → img[n]? = some (t.cellAt n)) ∧ t.mem.wf ∧
      t = { State.reset with ir := s.ir, mem := t.mem }

/-- The model's choice (log 13, allowed by R120): an image that is not full, or fails the pre-flight check, is refused by
name. -/
def Obligations.BootRefusesBadImage : Prop :=
  ∀ (img : List MemCell) (s : State), s.mem.wf → s.es ≠ .running →
    (img.length ≠ 20 → boot img s = .refused .imageNotFull) ∧
    (img.length = 20 → (∀ c, img[0]? = some c → c.op = 0b1101 ∨ c.opd = 0) → boot img s = .refused .preflightFailed)

/-- Derived from R60 and R114: `withFetchWord` puts the instruction where the next step runs it, and in a running state with a valid
PC it changes that cell alone (the rest of `withFetchWord` is the model's own, log 17). -/
def Obligations.PlacedInstructionRunsNext : Prop :=
  ∀ (s : State) (nbits w : Nat) (i : Instr), s.mem.wf → decodeTableWord nbits w = some i →
    step (s.withFetchWord nbits w) = exec i { s.withFetchWord nbits w with ir := encode i } ∧
    (s.es = .running → inMemory s.pc → s.withFetchWord nbits w = { s with mem := (s.withFetchWord nbits w).mem } ∧
      ∀ n, n ≠ cellIndex s.pc → (s.withFetchWord nbits w).cellAt n = s.cellAt n)
end

