-- ==== Sys2Proof/Laws/State.lean ====
section
/-! SUPPORT. What each update of the state does to each field, so that no later proof unfolds an update. -/

namespace Sys2Proof.Machine

variable {W : Nat}

@[simp] theorem State.setAcc_acc (s : State W) (v : Word W) : (s.setAcc v).acc = v := rfl
@[simp] theorem State.setAcc_pc (s : State W) (v : Word W) : (s.setAcc v).pc = s.pc := rfl
@[simp] theorem State.setAcc_tos (s : State W) (v : Word W) : (s.setAcc v).tos = s.tos := rfl
@[simp] theorem State.setAcc_status (s : State W) (v : Word W) : (s.setAcc v).status = s.status := rfl
@[simp] theorem State.setAcc_err (s : State W) (v : Word W) : (s.setAcc v).err = s.err := rfl
@[simp] theorem State.setAcc_cause (s : State W) (v : Word W) : (s.setAcc v).cause = s.cause := rfl
@[simp] theorem State.setAcc_es (s : State W) (v : Word W) : (s.setAcc v).es = s.es := rfl
@[simp] theorem State.setAcc_ir (s : State W) (v : Word W) : (s.setAcc v).ir = s.ir := rfl
@[simp] theorem State.setAcc_mem (s : State W) (v : Word W) : (s.setAcc v).mem = s.mem := rfl

@[simp] theorem State.setPc_acc (s : State W) (v : Word W) : (s.setPc v).acc = s.acc := rfl
@[simp] theorem State.setPc_pc (s : State W) (v : Word W) : (s.setPc v).pc = v := rfl
@[simp] theorem State.setPc_tos (s : State W) (v : Word W) : (s.setPc v).tos = s.tos := rfl
@[simp] theorem State.setPc_status (s : State W) (v : Word W) : (s.setPc v).status = s.status := rfl
@[simp] theorem State.setPc_err (s : State W) (v : Word W) : (s.setPc v).err = s.err := rfl
@[simp] theorem State.setPc_cause (s : State W) (v : Word W) : (s.setPc v).cause = s.cause := rfl
@[simp] theorem State.setPc_es (s : State W) (v : Word W) : (s.setPc v).es = s.es := rfl
@[simp] theorem State.setPc_ir (s : State W) (v : Word W) : (s.setPc v).ir = s.ir := rfl
@[simp] theorem State.setPc_mem (s : State W) (v : Word W) : (s.setPc v).mem = s.mem := rfl

@[simp] theorem State.setTos_acc (s : State W) (v : Word W) : (s.setTos v).acc = s.acc := rfl
@[simp] theorem State.setTos_pc (s : State W) (v : Word W) : (s.setTos v).pc = s.pc := rfl
@[simp] theorem State.setTos_tos (s : State W) (v : Word W) : (s.setTos v).tos = v := rfl
@[simp] theorem State.setTos_status (s : State W) (v : Word W) : (s.setTos v).status = s.status := rfl
@[simp] theorem State.setTos_err (s : State W) (v : Word W) : (s.setTos v).err = s.err := rfl
@[simp] theorem State.setTos_cause (s : State W) (v : Word W) : (s.setTos v).cause = s.cause := rfl
@[simp] theorem State.setTos_es (s : State W) (v : Word W) : (s.setTos v).es = s.es := rfl
@[simp] theorem State.setTos_ir (s : State W) (v : Word W) : (s.setTos v).ir = s.ir := rfl
@[simp] theorem State.setTos_mem (s : State W) (v : Word W) : (s.setTos v).mem = s.mem := rfl

@[simp] theorem State.setStatus_acc (s : State W) (v : BitVec 3) : (s.setStatus v).acc = s.acc := rfl
@[simp] theorem State.setStatus_pc (s : State W) (v : BitVec 3) : (s.setStatus v).pc = s.pc := rfl
@[simp] theorem State.setStatus_tos (s : State W) (v : BitVec 3) : (s.setStatus v).tos = s.tos := rfl
@[simp] theorem State.setStatus_status (s : State W) (v : BitVec 3) : (s.setStatus v).status = v := rfl
@[simp] theorem State.setStatus_err (s : State W) (v : BitVec 3) : (s.setStatus v).err = s.err := rfl
@[simp] theorem State.setStatus_cause (s : State W) (v : BitVec 3) : (s.setStatus v).cause = s.cause := rfl
@[simp] theorem State.setStatus_es (s : State W) (v : BitVec 3) : (s.setStatus v).es = s.es := rfl
@[simp] theorem State.setStatus_ir (s : State W) (v : BitVec 3) : (s.setStatus v).ir = s.ir := rfl
@[simp] theorem State.setStatus_mem (s : State W) (v : BitVec 3) : (s.setStatus v).mem = s.mem := rfl

@[simp] theorem State.setIr_acc (s : State W) (c : MemCell W) : (s.setIr c).acc = s.acc := rfl
@[simp] theorem State.setIr_pc (s : State W) (c : MemCell W) : (s.setIr c).pc = s.pc := rfl
@[simp] theorem State.setIr_tos (s : State W) (c : MemCell W) : (s.setIr c).tos = s.tos := rfl
@[simp] theorem State.setIr_status (s : State W) (c : MemCell W) : (s.setIr c).status = s.status := rfl
@[simp] theorem State.setIr_err (s : State W) (c : MemCell W) : (s.setIr c).err = s.err := rfl
@[simp] theorem State.setIr_cause (s : State W) (c : MemCell W) : (s.setIr c).cause = s.cause := rfl
@[simp] theorem State.setIr_es (s : State W) (c : MemCell W) : (s.setIr c).es = s.es := rfl
@[simp] theorem State.setIr_ir (s : State W) (c : MemCell W) : (s.setIr c).ir = c := rfl
@[simp] theorem State.setIr_mem (s : State W) (c : MemCell W) : (s.setIr c).mem = s.mem := rfl

@[simp] theorem State.setMem_acc (s : State W) (m : Memory W) : (s.setMem m).acc = s.acc := rfl
@[simp] theorem State.setMem_pc (s : State W) (m : Memory W) : (s.setMem m).pc = s.pc := rfl
@[simp] theorem State.setMem_tos (s : State W) (m : Memory W) : (s.setMem m).tos = s.tos := rfl
@[simp] theorem State.setMem_status (s : State W) (m : Memory W) : (s.setMem m).status = s.status := rfl
@[simp] theorem State.setMem_err (s : State W) (m : Memory W) : (s.setMem m).err = s.err := rfl
@[simp] theorem State.setMem_cause (s : State W) (m : Memory W) : (s.setMem m).cause = s.cause := rfl
@[simp] theorem State.setMem_es (s : State W) (m : Memory W) : (s.setMem m).es = s.es := rfl
@[simp] theorem State.setMem_ir (s : State W) (m : Memory W) : (s.setMem m).ir = s.ir := rfl
@[simp] theorem State.setMem_mem (s : State W) (m : Memory W) : (s.setMem m).mem = m := rfl

@[simp] theorem State.setEs_acc (s : State W) (e : EngineState) : (s.setEs e).acc = s.acc := rfl
@[simp] theorem State.setEs_pc (s : State W) (e : EngineState) : (s.setEs e).pc = s.pc := rfl
@[simp] theorem State.setEs_tos (s : State W) (e : EngineState) : (s.setEs e).tos = s.tos := rfl
@[simp] theorem State.setEs_status (s : State W) (e : EngineState) : (s.setEs e).status = s.status := rfl
@[simp] theorem State.setEs_err (s : State W) (e : EngineState) : (s.setEs e).err = s.err := rfl
@[simp] theorem State.setEs_cause (s : State W) (e : EngineState) : (s.setEs e).cause = s.cause := rfl
@[simp] theorem State.setEs_es (s : State W) (e : EngineState) : (s.setEs e).es = e := rfl
@[simp] theorem State.setEs_ir (s : State W) (e : EngineState) : (s.setEs e).ir = s.ir := rfl
@[simp] theorem State.setEs_mem (s : State W) (e : EngineState) : (s.setEs e).mem = s.mem := rfl

@[simp] theorem advancePc_acc (s : State W) : (advancePc s).acc = s.acc := rfl
@[simp] theorem advancePc_pc (s : State W) : (advancePc s).pc = incW s.pc := rfl
@[simp] theorem advancePc_tos (s : State W) : (advancePc s).tos = s.tos := rfl
@[simp] theorem advancePc_status (s : State W) : (advancePc s).status = s.status := rfl
@[simp] theorem advancePc_err (s : State W) : (advancePc s).err = s.err := rfl
@[simp] theorem advancePc_cause (s : State W) : (advancePc s).cause = s.cause := rfl
@[simp] theorem advancePc_es (s : State W) : (advancePc s).es = s.es := rfl
@[simp] theorem advancePc_ir (s : State W) : (advancePc s).ir = s.ir := rfl
@[simp] theorem advancePc_mem (s : State W) : (advancePc s).mem = s.mem := rfl

@[simp] theorem raiseFault_acc (c : Cause) (s : State W) : (raiseFault c s).acc = s.acc := rfl
@[simp] theorem raiseFault_pc (c : Cause) (s : State W) : (raiseFault c s).pc = s.pc := rfl
@[simp] theorem raiseFault_tos (c : Cause) (s : State W) : (raiseFault c s).tos = s.tos := rfl
@[simp] theorem raiseFault_status (c : Cause) (s : State W) : (raiseFault c s).status = s.status := rfl
@[simp] theorem raiseFault_err (c : Cause) (s : State W) : (raiseFault c s).err = 1 := rfl
@[simp] theorem raiseFault_cause (c : Cause) (s : State W) : (raiseFault c s).cause = c := rfl
@[simp] theorem raiseFault_es (c : Cause) (s : State W) : (raiseFault c s).es = .haltedError := rfl
@[simp] theorem raiseFault_ir (c : Cause) (s : State W) : (raiseFault c s).ir = s.ir := rfl
@[simp] theorem raiseFault_mem (c : Cause) (s : State W) : (raiseFault c s).mem = s.mem := rfl

@[simp] theorem haltNormal_acc (s : State W) : (haltNormal s).acc = s.acc := rfl
@[simp] theorem haltNormal_pc (s : State W) : (haltNormal s).pc = s.pc := rfl
@[simp] theorem haltNormal_tos (s : State W) : (haltNormal s).tos = s.tos := rfl
@[simp] theorem haltNormal_status (s : State W) : (haltNormal s).status = s.status := rfl
@[simp] theorem haltNormal_err (s : State W) : (haltNormal s).err = s.err := rfl
@[simp] theorem haltNormal_cause (s : State W) : (haltNormal s).cause = s.cause := rfl
@[simp] theorem haltNormal_es (s : State W) : (haltNormal s).es = .haltedNormal := rfl
@[simp] theorem haltNormal_ir (s : State W) : (haltNormal s).ir = s.ir := rfl
@[simp] theorem haltNormal_mem (s : State W) : (haltNormal s).mem = s.mem := rfl

@[simp] theorem State.setFlags_acc (s : State W) (v : Word W) : (s.setFlags v).acc = s.acc := rfl
@[simp] theorem State.setFlags_pc (s : State W) (v : Word W) : (s.setFlags v).pc = s.pc := rfl
@[simp] theorem State.setFlags_tos (s : State W) (v : Word W) : (s.setFlags v).tos = s.tos := rfl
@[simp] theorem State.setFlags_status (s : State W) (v : Word W) : (s.setFlags v).status = flagsOf v := rfl
@[simp] theorem State.setFlags_err (s : State W) (v : Word W) : (s.setFlags v).err = s.err := rfl
@[simp] theorem State.setFlags_cause (s : State W) (v : Word W) : (s.setFlags v).cause = s.cause := rfl
@[simp] theorem State.setFlags_es (s : State W) (v : Word W) : (s.setFlags v).es = s.es := rfl
@[simp] theorem State.setFlags_ir (s : State W) (v : Word W) : (s.setFlags v).ir = s.ir := rfl
@[simp] theorem State.setFlags_mem (s : State W) (v : Word W) : (s.setFlags v).mem = s.mem := rfl

@[simp] theorem State.writeAcc_acc (s : State W) (v : Word W) : (s.writeAcc v).acc = v := rfl
@[simp] theorem State.writeAcc_pc (s : State W) (v : Word W) : (s.writeAcc v).pc = s.pc := rfl
@[simp] theorem State.writeAcc_tos (s : State W) (v : Word W) : (s.writeAcc v).tos = s.tos := rfl
@[simp] theorem State.writeAcc_status (s : State W) (v : Word W) : (s.writeAcc v).status = flagsOf v := rfl
@[simp] theorem State.writeAcc_err (s : State W) (v : Word W) : (s.writeAcc v).err = s.err := rfl
@[simp] theorem State.writeAcc_cause (s : State W) (v : Word W) : (s.writeAcc v).cause = s.cause := rfl
@[simp] theorem State.writeAcc_es (s : State W) (v : Word W) : (s.writeAcc v).es = s.es := rfl
@[simp] theorem State.writeAcc_ir (s : State W) (v : Word W) : (s.writeAcc v).ir = s.ir := rfl
@[simp] theorem State.writeAcc_mem (s : State W) (v : Word W) : (s.writeAcc v).mem = s.mem := rfl

@[simp] theorem State.writeOpd_acc (s : State W) (n : Nat) (v : Word W) : (s.writeOpd n v).acc = s.acc := rfl
@[simp] theorem State.writeOpd_pc (s : State W) (n : Nat) (v : Word W) : (s.writeOpd n v).pc = s.pc := rfl
@[simp] theorem State.writeOpd_tos (s : State W) (n : Nat) (v : Word W) : (s.writeOpd n v).tos = s.tos := rfl
@[simp] theorem State.writeOpd_status (s : State W) (n : Nat) (v : Word W) : (s.writeOpd n v).status = s.status := rfl
@[simp] theorem State.writeOpd_err (s : State W) (n : Nat) (v : Word W) : (s.writeOpd n v).err = s.err := rfl
@[simp] theorem State.writeOpd_cause (s : State W) (n : Nat) (v : Word W) : (s.writeOpd n v).cause = s.cause := rfl
@[simp] theorem State.writeOpd_es (s : State W) (n : Nat) (v : Word W) : (s.writeOpd n v).es = s.es := rfl
@[simp] theorem State.writeOpd_ir (s : State W) (n : Nat) (v : Word W) : (s.writeOpd n v).ir = s.ir := rfl
@[simp] theorem State.writeOpd_mem (s : State W) (n : Nat) (v : Word W) : (s.writeOpd n v).mem = s.mem.write n { op := (s.cellAt n).op, opd := v } := rfl

@[simp] theorem State.loadCell_acc (s : State W) (n : Nat) (c : MemCell W) : (s.loadCell n c).acc = s.acc := rfl
@[simp] theorem State.loadCell_pc (s : State W) (n : Nat) (c : MemCell W) : (s.loadCell n c).pc = s.pc := rfl
@[simp] theorem State.loadCell_tos (s : State W) (n : Nat) (c : MemCell W) : (s.loadCell n c).tos = s.tos := rfl
@[simp] theorem State.loadCell_status (s : State W) (n : Nat) (c : MemCell W) : (s.loadCell n c).status = s.status := rfl
@[simp] theorem State.loadCell_err (s : State W) (n : Nat) (c : MemCell W) : (s.loadCell n c).err = s.err := rfl
@[simp] theorem State.loadCell_cause (s : State W) (n : Nat) (c : MemCell W) : (s.loadCell n c).cause = s.cause := rfl
@[simp] theorem State.loadCell_es (s : State W) (n : Nat) (c : MemCell W) : (s.loadCell n c).es = s.es := rfl
@[simp] theorem State.loadCell_ir (s : State W) (n : Nat) (c : MemCell W) : (s.loadCell n c).ir = s.ir := rfl
@[simp] theorem State.loadCell_mem (s : State W) (n : Nat) (c : MemCell W) : (s.loadCell n c).mem = s.mem.write n c := rfl

@[simp] theorem State.start_acc (rs : BitVec 3) (s : State W) : (s.start rs).acc = 0 := rfl
@[simp] theorem State.start_pc (rs : BitVec 3) (s : State W) : (s.start rs).pc = 0 := rfl
@[simp] theorem State.start_tos (rs : BitVec 3) (s : State W) : (s.start rs).tos = BitVec.ofNat W Config.hiMem := rfl
@[simp] theorem State.start_status (rs : BitVec 3) (s : State W) : (s.start rs).status = rs := rfl
@[simp] theorem State.start_err (rs : BitVec 3) (s : State W) : (s.start rs).err = 0 := rfl
@[simp] theorem State.start_cause (rs : BitVec 3) (s : State W) : (s.start rs).cause = .none := rfl
@[simp] theorem State.start_es (rs : BitVec 3) (s : State W) : (s.start rs).es = .running := rfl
@[simp] theorem State.start_ir (rs : BitVec 3) (s : State W) : (s.start rs).ir = s.ir := rfl
@[simp] theorem State.start_mem (rs : BitVec 3) (s : State W) : (s.start rs).mem = s.mem := rfl

@[simp] theorem State.setAcc_cellAt (s : State W) (v : Word W) (k : Nat) : (s.setAcc v).cellAt k = s.cellAt k := rfl
@[simp] theorem State.setPc_cellAt (s : State W) (v : Word W) (k : Nat) : (s.setPc v).cellAt k = s.cellAt k := rfl
@[simp] theorem State.setTos_cellAt (s : State W) (v : Word W) (k : Nat) : (s.setTos v).cellAt k = s.cellAt k := rfl
@[simp] theorem State.setStatus_cellAt (s : State W) (v : BitVec 3) (k : Nat) : (s.setStatus v).cellAt k = s.cellAt k := rfl
@[simp] theorem State.setEs_cellAt (s : State W) (e : EngineState) (k : Nat) : (s.setEs e).cellAt k = s.cellAt k := rfl
@[simp] theorem State.setIr_cellAt (s : State W) (c : MemCell W) (k : Nat) : (s.setIr c).cellAt k = s.cellAt k := rfl
@[simp] theorem advancePc_cellAt (s : State W) (k : Nat) : (advancePc s).cellAt k = s.cellAt k := rfl
@[simp] theorem raiseFault_cellAt (c : Cause) (s : State W) (k : Nat) : (raiseFault c s).cellAt k = s.cellAt k := rfl
@[simp] theorem haltNormal_cellAt (s : State W) (k : Nat) : (haltNormal s).cellAt k = s.cellAt k := rfl
@[simp] theorem State.setFlags_cellAt (s : State W) (v : Word W) (k : Nat) : (s.setFlags v).cellAt k = s.cellAt k := rfl
@[simp] theorem State.writeAcc_cellAt (s : State W) (v : Word W) (k : Nat) : (s.writeAcc v).cellAt k = s.cellAt k := rfl
@[simp] theorem State.start_cellAt (rs : BitVec 3) (s : State W) (k : Nat) : (s.start rs).cellAt k = s.cellAt k := rfl

end Sys2Proof.Machine
end

