-- ==== Sys2Proof/Laws/Memory.lean ====
section
/-! SUPPORT. The laws of the memory: read after write, and that every operation keeps the canonical form. -/

namespace Sys2Proof.Machine

variable {W : Nat}

/-- Reading the cell just written gives what was written. -/
@[simp] theorem Memory.cellAt_write_same (m : Memory W) (n : Nat) (c : MemCell W) (h : m.wf) :
    (Memory.write m n c).cellAt n = c := by
  induction m with
  | nil => simp only [Memory.write]; split <;> simp_all [Memory.cellAt]
  | cons p m ih =>
    obtain ⟨b, d⟩ := p
    obtain ⟨hs, he⟩ := h
    rw [List.pairwise_cons] at hs
    have hm : Memory.wf m := ⟨hs.2, fun q hq => he q (List.mem_cons_of_mem _ hq)⟩
    have absent : ∀ (l : Memory W), (∀ q ∈ l, n < q.1) → Memory.cellAt l n = unlistedCell := by
      intro l
      induction l with
      | nil => intro _; rfl
      | cons q l ihl =>
        intro hl
        have := hl q List.mem_cons_self
        rw [Memory.cellAt, if_neg (by omega)]
        exact ihl fun r hr => hl r (List.mem_cons_of_mem _ hr)
    simp only [Memory.write]
    split
    · next hlt =>
      split
      · next hc =>
        rw [hc]
        apply absent
        intro q hq
        rcases List.mem_cons.mp hq with rfl | hq
        · exact hlt
        · exact Nat.lt_trans hlt (hs.1 q hq)
      · simp [Memory.cellAt]
    · split
      · next heq =>
        split
        · next hc => rw [hc]; exact absent m fun q hq => heq ▸ hs.1 q hq
        · simp [Memory.cellAt]
      · next hne => rw [Memory.cellAt, if_neg hne]; exact ih hm

/-- A write leaves every other cell alone. -/
theorem Memory.cellAt_write_ne (m : Memory W) {n k : Nat} (c : MemCell W) (h : k ≠ n) :
    (Memory.write m n c).cellAt k = m.cellAt k := by
  induction m with
  | nil => simp only [Memory.write]; split <;> simp [Memory.cellAt, h]
  | cons p m ih =>
    obtain ⟨b, d⟩ := p
    simp only [Memory.write]
    split
    · split
      · rfl
      · simp [Memory.cellAt, h]
    · split
      · next heq => split <;> simp [Memory.cellAt, ← heq, h]
      · simp only [Memory.cellAt, ih]

/-- Every entry after a write is an old entry or the new one. -/
theorem Memory.mem_write {m : Memory W} {n : Nat} {c : MemCell W} {q : Nat × (MemCell W)}
    (h : q ∈ Memory.write m n c) : q ∈ m ∨ (q = (n, c) ∧ c ≠ unlistedCell) := by
  induction m with
  | nil => simp only [Memory.write] at h; split at h <;> simp_all
  | cons p m ih =>
    obtain ⟨b, d⟩ := p
    simp only [Memory.write] at h
    split at h
    · split at h
      · exact .inl h
      · next hc =>
        rcases List.mem_cons.mp h with h | h
        · exact .inr ⟨h, hc⟩
        · exact .inl h
    · split at h
      · split at h
        · exact .inl (List.mem_cons_of_mem _ h)
        · next hc =>
          rcases List.mem_cons.mp h with h | h
          · exact .inr ⟨h, hc⟩
          · exact .inl (List.mem_cons_of_mem _ h)
      · rcases List.mem_cons.mp h with h | h
        · exact .inl (h ▸ List.mem_cons_self)
        · exact (ih h).imp_left (List.mem_cons_of_mem _)

/-- A write to one of the 20 cells keeps the canonical form. -/
theorem Memory.write_wf {m : Memory W} {n : Nat} (c : MemCell W) (h : m.wf) (hn : n < Config.hiMem) :
    (Memory.write m n c).wf := by
  refine ⟨?_, fun q hq => ?_⟩
  · have hs := h.1
    clear h
    induction m with
    | nil => simp only [Memory.write]; split <;> simp
    | cons p m ih =>
      obtain ⟨b, d⟩ := p
      have hs' := hs
      rw [List.pairwise_cons] at hs
      simp only [Memory.write]
      split
      · next hlt =>
        split
        · exact hs'
        · refine List.pairwise_cons.mpr ⟨fun q hq => ?_, hs'⟩
          rcases List.mem_cons.mp hq with rfl | hq
          · exact hlt
          · exact Nat.lt_trans hlt (hs.1 q hq)
      · split
        · next heq =>
          split
          · exact hs.2
          · exact List.pairwise_cons.mpr ⟨fun q hq => heq ▸ hs.1 q hq, hs.2⟩
        · refine List.pairwise_cons.mpr ⟨fun q hq => ?_, ih hs.2⟩
          rcases Memory.mem_write hq with hq | ⟨rfl, _⟩
          · exact hs.1 q hq
          · show b < n
            omega
  · rcases Memory.mem_write hq with hq | ⟨rfl, hc⟩
    · exact h.2 q hq
    · exact ⟨hn, hc⟩

/-- Reset memory is in the canonical form. -/
theorem State.resetAt_mem_wf (cfg : Config) : (State.resetAt cfg).mem.wf := by
  refine ⟨List.Pairwise.nil, fun p hp => ?_⟩
  cases hp

/-- The cell written by STA or a push keeps its opcode and takes the value. -/
theorem State.writeOpd_cellAt_same (s : State W) (n : Nat) (v : Word W) (h : s.mem.wf) :
    (s.writeOpd n v).cellAt n = { op := (s.cellAt n).op, opd := v } :=
  Memory.cellAt_write_same s.mem n _ h

/-- A store leaves every other cell alone. -/
theorem State.writeOpd_cellAt_ne (s : State W) {n k : Nat} (v : Word W) (h : k ≠ n) :
    (s.writeOpd n v).cellAt k = s.cellAt k :=
  Memory.cellAt_write_ne s.mem _ h

/-- The cell loaded by the host. -/
theorem State.loadCell_cellAt_same (s : State W) (n : Nat) (c : MemCell W) (h : s.mem.wf) :
    (s.loadCell n c).cellAt n = c :=
  Memory.cellAt_write_same s.mem n _ h

/-- LOAD_CELL leaves every other cell alone. -/
theorem State.loadCell_cellAt_ne (s : State W) {n k : Nat} (c : MemCell W) (h : k ≠ n) :
    (s.loadCell n c).cellAt k = s.cellAt k :=
  Memory.cellAt_write_ne s.mem _ h

/-- A store to one of the 20 cells keeps the canonical form. -/
theorem State.writeOpd_wf {s : State W} {n : Nat} (v : Word W) (h : s.mem.wf) (hn : n < Config.hiMem) :
    (s.writeOpd n v).mem.wf :=
  Memory.write_wf _ h hn

/-- LOAD_CELL of one of the 20 cells keeps the canonical form. -/
theorem State.loadCell_wf {s : State W} {n : Nat} (c : MemCell W) (h : s.mem.wf) (hn : n < Config.hiMem) :
    (s.loadCell n c).mem.wf :=
  Memory.write_wf _ h hn

/-- A store that writes the opcode that is there keeps every opcode, in any memory. -/
theorem Memory.op_write_opd (m : Memory W) (n k : Nat) (v : Word W) (h : m.wf) :
    ((Memory.write m n { op := (m.cellAt n).op, opd := v }).cellAt k).op = (m.cellAt k).op := by
  by_cases hk : k = n
  · subst hk; rw [Memory.cellAt_write_same _ _ _ h]
  · rw [Memory.cellAt_write_ne _ _ hk]

end Sys2Proof.Machine
end

