-- ==== Sys2Proof/Laws/Word.lean ====
section
/-! SUPPORT. The arithmetic of words, addresses and flags. -/

namespace Sys2Proof.Machine

@[simp] theorem hiMem_eq : Config.hiMem = 20 := rfl

/-- `+W` is the bit vectors' own wrapping sum. -/
theorem addW_eq {w : Nat} (a b : BitVec w) : addW a b = a + b := by
  simp [addW, BitVec.ofInt_add]

/-- `−W` is the bit vectors' own wrapping difference. -/
theorem subW_eq {w : Nat} (a b : BitVec w) : subW a b = a - b := by
  simp [subW, Int.sub_eq_add_neg, BitVec.ofInt_add, BitVec.sub_eq_add_neg, BitVec.ofInt_neg]

theorem incW_eq {w : Nat} (a : BitVec w) : incW a = a + 1 := by
  simp [incW, BitVec.ofInt_add]

theorem decW_eq {w : Nat} (a : BitVec w) : decW a = a - 1 := by
  simp [decW, Int.sub_eq_add_neg, BitVec.ofInt_add, BitVec.sub_eq_add_neg, BitVec.ofInt_neg]

/-- A word of W bits made from an integer in the signed range of W bits has that integer as its value. -/
theorem word_toInt_ofInt {w : Nat} {n : Int} (hw : 0 < w) (h1 : -(2 ^ (w - 1)) ≤ n) (h2 : n < 2 ^ (w - 1)) :
    (BitVec.ofInt w n).toInt = n := by
  obtain ⟨k, rfl⟩ : ∃ k, w = k + 1 := ⟨w - 1, by omega⟩
  have e : ((2 ^ (k + 1) : Nat) : Int) = 2 * 2 ^ k := by push_cast; ring
  simp only [Nat.add_sub_cancel] at h1 h2
  rw [BitVec.toInt_ofInt]
  exact Int.bmod_eq_of_le (by omega) (by omega)

/-- R7: at every legal width the signed range takes in -256 to 255. -/
theorem legal_range {w : Nat} (h : 9 ≤ w) : (256 : Int) ≤ 2 ^ (w - 1) := by
  calc (256 : Int) = 2 ^ 8 := by norm_num
    _ ≤ 2 ^ (w - 1) := pow_le_pow_right₀ (by norm_num) (by omega)

/-- A small integer fits every legal width. -/
theorem word_toInt_small {w : Nat} {n : Int} (hw : 9 ≤ w) (h1 : -256 ≤ n) (h2 : n ≤ 255) :
    (BitVec.ofInt w n).toInt = n := by
  have := legal_range hw
  exact word_toInt_ofInt (by omega) (by omega) (by omega)

/-- A small numeral fits every legal width: TOS = 20 after START. -/
theorem word_toInt_ofNat_small {w : Nat} {n : Nat} (hw : 9 ≤ w) (h : n ≤ 255) : (BitVec.ofNat w n).toInt = n := by
  rw [← BitVec.ofInt_natCast]
  exact word_toInt_small hw (by omega) (by omega)

theorem valid_iff {w : Nat} (a : BitVec w) : valid a = true ↔ 0 ≤ a.toInt ∧ a.toInt ≤ 19 := by
  simp [valid]

theorem valid_false_iff {w : Nat} (a : BitVec w) : valid a = false ↔ ¬ (0 ≤ a.toInt ∧ a.toInt ≤ 19) := by
  rw [← valid_iff, Bool.not_eq_true]

/-- A valid address names one of the 20 cells. -/
theorem cellIndex_lt {w : Nat} {a : BitVec w} (h : valid a = true) : cellIndex a < Config.hiMem := by
  have := (valid_iff a).mp h
  show a.toInt.toNat < 20
  omega

/-- Two words of the same signed value are the same word. -/
theorem word_ext {w : Nat} {a b : BitVec w} (h : a.toInt = b.toInt) : a = b := BitVec.eq_of_toInt_eq h

/-- The increment does not wrap below the largest word: PC after a fetch (R19), TOS after a pop. -/
theorem incW_toInt {w : Nat} {a : BitVec w} (hw : 0 < w) (h : a.toInt + 1 < 2 ^ (w - 1)) :
    (incW a).toInt = a.toInt + 1 :=
  word_toInt_ofInt hw (by have := BitVec.le_toInt a; omega) h

/-- The same for what PC and TOS hold in a run, at every legal width. -/
theorem incW_toInt_small {w : Nat} {a : BitVec w} (hw : 9 ≤ w) (h : a.toInt ≤ 20) : (incW a).toInt = a.toInt + 1 :=
  incW_toInt (by omega) (by have := legal_range hw; omega)

/-- The decrement of a positive word does not wrap: TOS after a push. -/
theorem decW_toInt {w : Nat} {a : BitVec w} (h : 0 < a.toInt) : (decW a).toInt = a.toInt - 1 := by
  have hw : 0 < w := by
    rcases Nat.eq_zero_or_pos w with rfl | hw
    · rw [BitVec.eq_nil a] at h; exact absurd h (by decide)
    · exact hw
  exact word_toInt_ofInt hw (by have := pow_pos (two_pos : (0 : Int) < 2) (w - 1); omega)
    (by have := BitVec.toInt_lt (x := a); omega)

/-- Everything the flag function can answer. -/
theorem flagsOf_cases {w : Nat} (v : BitVec w) :
    (v.toInt = 0 ∧ flagsOf v = 0b100) ∨ (v.toInt < 0 ∧ flagsOf v = 0b010) ∨
    (127 < v.toInt ∧ flagsOf v = 0b001) ∨ ((0 < v.toInt ∧ v.toInt ≤ 127) ∧ flagsOf v = 0b000) := by
  unfold flagsOf Config.maxInt Config.minInt
  split
  · exact .inl ⟨‹_›, rfl⟩
  · split
    · exact .inr (.inl ⟨‹_›, rfl⟩)
    · split
      · exact .inr (.inr (.inl ⟨by omega, rfl⟩))
      · exact .inr (.inr (.inr ⟨by omega, rfl⟩))

end Sys2Proof.Machine
end

