-- ==== Sys2Proof/Laws/Ops.lean ====
section
/-! SUPPORT. For each shared operation, everything it can do. -/

namespace Sys2Proof.Machine

variable {W : Nat}

theorem raise_eq (c : Cause) (s : State W) : raise c s = .next (raiseFault c s) := rfl

/-! ### Memory primitives -/

theorem memRead_valid {a : Word W} {s : State W} (h : valid a = true) :
    memRead a s = some (s.cellAt (cellIndex a)).opd := by simp [memRead, h]

theorem memRead_invalid {a : Word W} {s : State W} (h : valid a = false) : memRead a s = none := by
  simp [memRead, h]

theorem memWrite_valid {a v : Word W} {s : State W} (h : valid a = true) :
    memWrite a v s = some (s.writeOpd (cellIndex a) v) := by simp [memWrite, h]

theorem memWrite_invalid {a v : Word W} {s : State W} (h : valid a = false) : memWrite a v s = none := by
  simp [memWrite, h]

theorem fetchCell_valid {a : Word W} {s : State W} (h : valid a = true) :
    fetchCell a s = some (s.cellAt (cellIndex a)) := by simp [fetchCell, h]

theorem fetchCell_invalid {a : Word W} {s : State W} (h : valid a = false) : fetchCell a s = none := by
  simp [fetchCell, h]

/-! ### Shared ends of the data instructions -/

theorem withData_valid {a : Word W} {s : State W} {k : Word W → Result W} (h : valid a = true) :
    withData a s k = k (s.cellAt (cellIndex a)).opd := by
  rw [withData, memRead_valid h]

theorem withData_invalid {a : Word W} {s : State W} {k : Word W → Result W} (h : valid a = false) :
    withData a s k = .next (raiseFault .dataAddress s) := by
  rw [withData, memRead_invalid h]; rfl

theorem storeData_valid {a v : Word W} {s : State W} (h : valid a = true) :
    storeData a v s = .next (s.writeOpd (cellIndex a) v) := by
  rw [storeData, memWrite_valid h]

theorem storeData_invalid {a v : Word W} {s : State W} (h : valid a = false) :
    storeData a v s = .next (raiseFault .dataAddress s) := by
  rw [storeData, memWrite_invalid h]; rfl

/-- ADD and SUB end in a fault exactly when the result is above 127, and the result is written in either case. -/
theorem finishArith_cases (v : Word W) (s : State W) :
    (127 < v.toInt ∧ finishArith v s = .next (raiseFault .arithOverflow (s.writeAcc v))) ∨
    (v.toInt ≤ 127 ∧ finishArith v s = .next (s.writeAcc v)) := by
  unfold finishArith
  rcases flagsOf_cases v with ⟨h, e⟩ | ⟨h, e⟩ | ⟨h, e⟩ | ⟨h, e⟩
  · exact .inr ⟨by omega, by simp [overflowFlag, e]⟩
  · exact .inr ⟨by omega, by simp [overflowFlag, e]⟩
  · exact .inl ⟨h, by simp [overflowFlag, e, raise]⟩
  · exact .inr ⟨h.2, by simp [overflowFlag, e]⟩

/-! ### Fetch and step -/

/-- Everything the fetch phase can do. -/
theorem fetch_cases (s : State W) :
    (s.es ≠ .running ∧ ∃ f, fetch s = .noStep f) ∨
    (s.es = .running ∧ valid s.pc = false ∧ fetch s = .faulted (raiseFault .fetchAddress s)) ∨
    (s.es = .running ∧ valid s.pc = true ∧
      fetch s = .fetched (s.cellAt (cellIndex s.pc)) (s.setIr (s.cellAt (cellIndex s.pc)))) := by
  unfold fetch
  cases hes : s.es with
  | idle => exact .inl ⟨by simp, _, rfl⟩
  | haltedNormal => exact .inl ⟨by simp, _, rfl⟩
  | haltedError => exact .inl ⟨by simp, _, rfl⟩
  | running =>
    cases hv : valid s.pc with
    | false => exact .inr (.inl ⟨rfl, rfl, by simp [fetchCell_invalid hv]⟩)
    | true => exact .inr (.inr ⟨rfl, rfl, by simp [fetchCell_valid hv]⟩)

/-- A state made ready to fetch has a valid PC and is running, with the memory it had. -/
theorem readyToFetch_spec (s : State W) :
    valid (readyToFetch s).pc = true ∧ (readyToFetch s).es = .running ∧ (readyToFetch s).mem = s.mem := by
  unfold readyToFetch
  cases h : valid s.pc with
  | true => exact ⟨h, rfl, rfl⟩
  | false => exact ⟨show valid (0 : Word W) = true by simp [valid], rfl, rfl⟩

/-- A running state with a valid PC is ready to fetch as it is. -/
theorem readyToFetch_self {s : State W} (h : s.es = .running) (hv : valid s.pc = true) : readyToFetch s = s := by
  rw [readyToFetch, if_pos hv, State.setEs, ← h]

/-- The placed cell is what the next fetch reads. -/
theorem fetch_placeAtFetch (s : State W) (c : MemCell W) (h : s.mem.wf) :
    fetch (placeAtFetch s c) = .fetched c ((placeAtFetch s c).setIr c) := by
  obtain ⟨hv, hr, hm⟩ := readyToFetch_spec s
  have hc : (placeAtFetch s c).cellAt (cellIndex (placeAtFetch s c).pc) = c :=
    State.loadCell_cellAt_same _ _ _ (hm ▸ h)
  rcases fetch_cases (placeAtFetch s c) with ⟨h1, _⟩ | ⟨_, h1, _⟩ | ⟨_, _, e⟩
  · exact absurd hr h1
  · exact absurd (hv.symm.trans h1) (by decide)
  · rw [e, hc]

end Sys2Proof.Machine
end

