-- ==== Sys2Proof/Laws/Exec.lean ====
section
/-! SUPPORT. For each meaning with more than one outcome, and for the step, everything it can do; later proofs split on these
and never unfold a meaning. -/

namespace Sys2Proof.Machine

variable {W : Nat}

theorem execAtLda_cases (a : Word W) (s : State W) :
    (valid a = true ∧ execAt (.lda a) s = .next ((advancePc s).writeAcc (s.cellAt (cellIndex a)).opd)) ∨
    (valid a = false ∧ execAt (.lda a) s = .next (raiseFault .dataAddress (advancePc s))) := by
  cases h : valid a with
  | true => exact .inl ⟨rfl, withData_valid h⟩
  | false => exact .inr ⟨rfl, withData_invalid h⟩

theorem execAtSta_cases (a : Word W) (s : State W) :
    (valid a = true ∧ execAt (.sta a) s = .next ((advancePc s).writeOpd (cellIndex a) s.acc)) ∨
    (valid a = false ∧ execAt (.sta a) s = .next (raiseFault .dataAddress (advancePc s))) := by
  cases h : valid a with
  | true => exact .inl ⟨rfl, storeData_valid h⟩
  | false => exact .inr ⟨rfl, storeData_invalid h⟩

theorem execAtAdd_cases (a : Word W) (s : State W) :
    (valid a = false ∧ execAt (.add a) s = .next (raiseFault .dataAddress (advancePc s))) ∨
    (valid a = true ∧ ∃ r, r = s.acc + (s.cellAt (cellIndex a)).opd ∧
      ((127 < r.toInt ∧ execAt (.add a) s = .next (raiseFault .arithOverflow ((advancePc s).writeAcc r))) ∨
       (r.toInt ≤ 127 ∧ execAt (.add a) s = .next ((advancePc s).writeAcc r)))) := by
  cases h : valid a with
  | false => exact .inl ⟨rfl, withData_invalid h⟩
  | true =>
    have e : execAt (.add a) s = finishArith (addW s.acc (s.cellAt (cellIndex a)).opd) (advancePc s) := withData_valid h
    rw [addW_eq] at e
    exact .inr ⟨rfl, _, rfl, by rw [e]; exact finishArith_cases _ _⟩

theorem execAtSub_cases (a : Word W) (s : State W) :
    (valid a = false ∧ execAt (.sub a) s = .next (raiseFault .dataAddress (advancePc s))) ∨
    (valid a = true ∧ ∃ r, r = s.acc - (s.cellAt (cellIndex a)).opd ∧
      ((127 < r.toInt ∧ execAt (.sub a) s = .next (raiseFault .arithOverflow ((advancePc s).writeAcc r))) ∨
       (r.toInt ≤ 127 ∧ execAt (.sub a) s = .next ((advancePc s).writeAcc r)))) := by
  cases h : valid a with
  | false => exact .inl ⟨rfl, withData_invalid h⟩
  | true =>
    have e : execAt (.sub a) s = finishArith (subW s.acc (s.cellAt (cellIndex a)).opd) (advancePc s) := withData_valid h
    rw [subW_eq] at e
    exact .inr ⟨rfl, _, rfl, by rw [e]; exact finishArith_cases _ _⟩

theorem execAtBeq_cases (target : Word W) (s : State W) :
    (zeroFlag s.status = true ∧ execAt (.beq target) s = .next ((advancePc s).setPc target)) ∨
    (zeroFlag s.status = false ∧ execAt (.beq target) s = .next (advancePc s)) := by
  cases h : zeroFlag s.status with
  | true => exact .inl ⟨rfl, if_pos h⟩
  | false => exact .inr ⟨rfl, if_neg (by simp [h])⟩

theorem execAtJsr_cases (target : Word W) (s : State W) :
    (s.tos.toInt ≤ 0 ∧ execAt (.jsr target) s = .next (raiseFault .stackOverflow (advancePc s))) ∨
    ((1 ≤ s.tos.toInt ∧ s.tos.toInt ≤ 20) ∧ valid (decW s.tos) = true ∧
      execAt (.jsr target) s =
        .next ((((advancePc s).setTos (decW s.tos)).writeOpd (cellIndex (decW s.tos)) (incW s.pc)).setPc target)) ∨
    (20 < s.tos.toInt ∧ execAt (.jsr target) s = .fault .stackCellMissing) := by
  by_cases h0 : s.tos.toInt ≤ 0
  · exact .inl ⟨h0, if_pos h0⟩
  have hd : (decW s.tos).toInt = s.tos.toInt - 1 := decW_toInt (by omega)
  have e : execAt (.jsr target) s =
      match memWrite (decW s.tos) (incW s.pc) ((advancePc s).setTos (decW s.tos)) with
      | none => .fault .stackCellMissing
      | some t => .next (t.setPc target) := if_neg h0
  by_cases h20 : s.tos.toInt ≤ 20
  · have hv : valid (decW s.tos) = true := by rw [valid_iff]; omega
    rw [memWrite_valid hv] at e
    exact .inr (.inl ⟨⟨by omega, h20⟩, hv, e⟩)
  · have hv : valid (decW s.tos) = false := by rw [valid_false_iff]; omega
    rw [memWrite_invalid hv] at e
    exact .inr (.inr ⟨by omega, e⟩)

theorem execAtRtn_cases (opd : Word W) (s : State W) :
    (20 ≤ s.tos.toInt ∧ execAt (.rtn opd) s = .next (raiseFault .stackUnderflow (advancePc s))) ∨
    ((0 ≤ s.tos.toInt ∧ s.tos.toInt ≤ 19) ∧ valid s.tos = true ∧
      execAt (.rtn opd) s = .next (((advancePc s).setPc (s.cellAt (cellIndex s.tos)).opd).setTos (incW s.tos))) ∨
    (s.tos.toInt < 0 ∧ execAt (.rtn opd) s = .fault .stackCellMissing) := by
  by_cases h20 : s.tos.toInt ≥ ((20 : Nat) : Int)
  · exact .inl ⟨h20, if_pos h20⟩
  have e : execAt (.rtn opd) s =
      match memRead s.tos (advancePc s) with
      | none => .fault .stackCellMissing
      | some v => .next (((advancePc s).setPc v).setTos (incW s.tos)) := if_neg h20
  by_cases h0 : 0 ≤ s.tos.toInt
  · have hv : valid s.tos = true := by rw [valid_iff]; omega
    rw [memRead_valid hv] at e
    exact .inr (.inl ⟨⟨h0, by omega⟩, hv, e⟩)
  · have hv : valid s.tos = false := by rw [valid_false_iff]; omega
    rw [memRead_invalid hv] at e
    exact .inr (.inr ⟨by omega, e⟩)

theorem execAt_noneOp (v : Word W) (s : State W) : execAt (.noneOp v) s = .next (advancePc s) := rfl

theorem execAt_ldaImm (v : Word W) (s : State W) : execAt (.ldaImm v) s = .next ((advancePc s).writeAcc v) := rfl

theorem execAt_jmp (v : Word W) (s : State W) : execAt (.jmp v) s = .next ((advancePc s).setPc v) := rfl

theorem execAt_cmpImm (v : Word W) (s : State W) :
    execAt (.cmpImm v) s = .next ((advancePc s).setFlags (s.acc - v)) := by
  rw [← subW_eq]; rfl

theorem execAt_skp (v : Word W) (s : State W) : execAt (.skp v) s = .next (advancePc s) := rfl

theorem execAt_hlt (v : Word W) (s : State W) : execAt (.hlt v) s = .next (haltNormal s) := rfl

theorem execAt_err (v : Word W) (s : State W) : execAt (.err v) s = .next (raiseFault .illegalOpcode (advancePc s)) := rfl

theorem execAt_reserved14 (v : Word W) (s : State W) :
    execAt (.reserved14 v) s = .next (raiseFault .illegalOpcode (advancePc s)) := rfl

theorem execAt_reserved15 (v : Word W) (s : State W) :
    execAt (.reserved15 v) s = .next (raiseFault .illegalOpcode (advancePc s)) := rfl

/-- Every way an instruction can reach a next state: the instruction, the state before, the state after. -/
inductive ExecNext : Instr W → State W → State W → Prop
  | noneOp (v s) : ExecNext (.noneOp v) s (advancePc s)
  | lda (a s) (h : valid a = true) : ExecNext (.lda a) s ((advancePc s).writeAcc (s.cellAt (cellIndex a)).opd)
  | ldaFault (a s) (h : valid a = false) : ExecNext (.lda a) s (raiseFault .dataAddress (advancePc s))
  | sta (a s) (h : valid a = true) : ExecNext (.sta a) s ((advancePc s).writeOpd (cellIndex a) s.acc)
  | staFault (a s) (h : valid a = false) : ExecNext (.sta a) s (raiseFault .dataAddress (advancePc s))
  | ldaImm (v s) : ExecNext (.ldaImm v) s ((advancePc s).writeAcc v)
  | add (a s r) (h : valid a = true) (hr : r = s.acc + (s.cellAt (cellIndex a)).opd) (hle : r.toInt ≤ 127) :
      ExecNext (.add a) s ((advancePc s).writeAcc r)
  | addOverflow (a s r) (h : valid a = true) (hr : r = s.acc + (s.cellAt (cellIndex a)).opd) (hgt : 127 < r.toInt) :
      ExecNext (.add a) s (raiseFault .arithOverflow ((advancePc s).writeAcc r))
  | addFault (a s) (h : valid a = false) : ExecNext (.add a) s (raiseFault .dataAddress (advancePc s))
  | jmp (v s) : ExecNext (.jmp v) s ((advancePc s).setPc v)
  | sub (a s r) (h : valid a = true) (hr : r = s.acc - (s.cellAt (cellIndex a)).opd) (hle : r.toInt ≤ 127) :
      ExecNext (.sub a) s ((advancePc s).writeAcc r)
  | subOverflow (a s r) (h : valid a = true) (hr : r = s.acc - (s.cellAt (cellIndex a)).opd) (hgt : 127 < r.toInt) :
      ExecNext (.sub a) s (raiseFault .arithOverflow ((advancePc s).writeAcc r))
  | subFault (a s) (h : valid a = false) : ExecNext (.sub a) s (raiseFault .dataAddress (advancePc s))
  | cmpImm (v s) : ExecNext (.cmpImm v) s ((advancePc s).setFlags (s.acc - v))
  | beqTaken (v s) (h : zeroFlag s.status = true) : ExecNext (.beq v) s ((advancePc s).setPc v)
  | beqPassed (v s) (h : zeroFlag s.status = false) : ExecNext (.beq v) s (advancePc s)
  | skp (v s) : ExecNext (.skp v) s (advancePc s)
  | jsr (v s) (h1 : 1 ≤ s.tos.toInt) (h20 : s.tos.toInt ≤ 20) (hv : valid (decW s.tos) = true) :
      ExecNext (.jsr v) s
        ((((advancePc s).setTos (decW s.tos)).writeOpd (cellIndex (decW s.tos)) (incW s.pc)).setPc v)
  | jsrFault (v s) (h : s.tos.toInt ≤ 0) : ExecNext (.jsr v) s (raiseFault .stackOverflow (advancePc s))
  | rtn (v s) (h0 : 0 ≤ s.tos.toInt) (h19 : s.tos.toInt ≤ 19) (hv : valid s.tos = true) :
      ExecNext (.rtn v) s (((advancePc s).setPc (s.cellAt (cellIndex s.tos)).opd).setTos (incW s.tos))
  | rtnFault (v s) (h : 20 ≤ s.tos.toInt) : ExecNext (.rtn v) s (raiseFault .stackUnderflow (advancePc s))
  | hlt (v s) : ExecNext (.hlt v) s (haltNormal s)
  | err (v s) : ExecNext (.err v) s (raiseFault .illegalOpcode (advancePc s))
  | reserved14 (v s) : ExecNext (.reserved14 v) s (raiseFault .illegalOpcode (advancePc s))
  | reserved15 (v s) : ExecNext (.reserved15 v) s (raiseFault .illegalOpcode (advancePc s))

/-- The inversion of `execAt`: a next state is one of those of `ExecNext`. -/
theorem execNext_of_execAt {i : Instr W} {s t : State W} (h : execAt i s = .next t) : ExecNext i s t := by
  cases i with
  | noneOp v => cases h; exact .noneOp v s
  | lda a =>
    rcases execAtLda_cases a s with ⟨hv, e⟩ | ⟨hv, e⟩ <;> rw [e] at h <;> cases h
    · exact .lda a s hv
    · exact .ldaFault a s hv
  | sta a =>
    rcases execAtSta_cases a s with ⟨hv, e⟩ | ⟨hv, e⟩ <;> rw [e] at h <;> cases h
    · exact .sta a s hv
    · exact .staFault a s hv
  | ldaImm v => cases h; exact .ldaImm v s
  | add a =>
    rcases execAtAdd_cases a s with ⟨hv, e⟩ | ⟨hv, r, hr, ⟨hgt, e⟩ | ⟨hle, e⟩⟩ <;> rw [e] at h <;> cases h
    · exact .addFault a s hv
    · exact .addOverflow a s r hv hr hgt
    · exact .add a s r hv hr hle
  | jmp v => cases h; exact .jmp v s
  | sub a =>
    rcases execAtSub_cases a s with ⟨hv, e⟩ | ⟨hv, r, hr, ⟨hgt, e⟩ | ⟨hle, e⟩⟩ <;> rw [e] at h <;> cases h
    · exact .subFault a s hv
    · exact .subOverflow a s r hv hr hgt
    · exact .sub a s r hv hr hle
  | cmpImm v => rw [execAt_cmpImm] at h; cases h; exact .cmpImm v s
  | beq v =>
    rcases execAtBeq_cases v s with ⟨hz, e⟩ | ⟨hz, e⟩ <;> rw [e] at h <;> cases h
    · exact .beqTaken v s hz
    · exact .beqPassed v s hz
  | skp v => cases h; exact .skp v s
  | jsr v =>
    rcases execAtJsr_cases v s with ⟨h0, e⟩ | ⟨⟨h1, h20⟩, hv, e⟩ | ⟨_, e⟩ <;> rw [e] at h <;> cases h
    · exact .jsrFault v s h0
    · exact .jsr v s h1 h20 hv
  | rtn v =>
    rcases execAtRtn_cases v s with ⟨h20, e⟩ | ⟨⟨h0, h19⟩, hv, e⟩ | ⟨_, e⟩ <;> rw [e] at h <;> cases h
    · exact .rtnFault v s h20
    · exact .rtn v s h0 h19 hv
  | hlt v => cases h; exact .hlt v s
  | err v => cases h; exact .err v s
  | reserved14 v => cases h; exact .reserved14 v s
  | reserved15 v => cases h; exact .reserved15 v s

/-! ### The step -/

/-- Everything a step can do, at every width. -/
theorem stepAt_cases (s : State W) :
    (s.es ≠ .running ∧ ∃ f, stepAt s = .fault f) ∨
    (s.es = .running ∧ valid s.pc = false ∧ stepAt s = .next (raiseFault .fetchAddress s)) ∨
    (s.es = .running ∧ valid s.pc = true ∧
      stepAt s = execAt (decodeCell (s.cellAt (cellIndex s.pc))) (s.setIr (s.cellAt (cellIndex s.pc)))) := by
  rcases fetch_cases s with ⟨h, f, e⟩ | ⟨h, hv, e⟩ | ⟨h, hv, e⟩
  · exact .inl ⟨h, f, by rw [stepAt, stepWith, e]⟩
  · exact .inr (.inl ⟨h, hv, by rw [stepAt, stepWith, e]⟩)
  · exact .inr (.inr ⟨h, hv, by rw [stepAt, stepWith, e]⟩)

/-! ### The default machine -/

/-- R6: at the default width the dispatch of every width is `exec`. -/
theorem execAt_eq_exec (i : Instr) (s : State) : execAt i s = exec i s := by cases i <;> rfl

/-- At the default width the step of every width is `step`. -/
theorem stepAt_eq_step (s : State) : stepAt s = step s := by
  have e : @execAt Config.defaultWidth = exec := funext fun i => funext fun t => execAt_eq_exec i t
  unfold stepAt step
  rw [e]

/-- The machine of the default configuration is the default machine. -/
theorem coreAt_default : coreAt Config.default = Sys2Proof.core := by
  have e : @stepAt Config.defaultWidth = step := funext stepAt_eq_step
  unfold coreAt Sys2Proof.core
  congr

/-- The inversion of `exec`. -/
theorem execNext_of_exec {i : Instr} {s t : State} (h : exec i s = .next t) : ExecNext i s t :=
  execNext_of_execAt ((execAt_eq_exec i s).trans h)

/-- Everything a step of the default machine can do. -/
theorem step_cases (s : State) :
    (s.es ≠ .running ∧ ∃ f, step s = .fault f) ∨
    (s.es = .running ∧ valid s.pc = false ∧ step s = .next (raiseFault .fetchAddress s)) ∨
    (s.es = .running ∧ valid s.pc = true ∧
      step s = exec (decodeCell (s.cellAt (cellIndex s.pc))) (s.setIr (s.cellAt (cellIndex s.pc)))) := by
  simp only [← stepAt_eq_step, ← execAt_eq_exec]
  exact stepAt_cases s

/-- A run of k + 1 steps is a step and a run of k steps. -/
theorem run_succ_of_step (M : Host.Core) {k : Nat} {s t : M.State} (h : M.step s = .next t) :
    M.run (k + 1) s = M.run k t := by
  rw [Host.Core.run, h]

/-- The same for this machine. -/
theorem core_run_succ {k : Nat} {s t : State} (h : step s = .next t) :
    Host.Core.run Sys2Proof.core (k + 1) s = Host.Core.run Sys2Proof.core k t :=
  run_succ_of_step Sys2Proof.core h

end Sys2Proof.Machine
end

