-- ==== Sys2Proof/Laws/PerInstr.lean ====
section
/-! SUPPORT. Facts about the instructions as syntax, one lemma per constructor. -/

namespace Sys2Proof.Laws.EncodedWord

/-- The bits of an instruction are those of one well-formed cell (R45), and the instruction is well formed (R49). -/
def Statement (i : Instr) : Prop :=
  i.wellFormed = true ∧ wordWellFormed (encodeBits i) = true

/-- A cell's bits fit in W + 4 bits. -/
theorem cellBits_wellFormed (c : MemCell) : wordWellFormed (cellBits c) = true := by
  have h1 : c.op.toNat < 16 := c.op.isLt
  have h2 : c.opd.toNat < 4294967296 := c.opd.isLt
  have : c.op.toNat * 4294967296 + c.opd.toNat < 68719476736 := by omega
  exact decide_eq_true this

theorem noneOp (v : Word) : Statement (.noneOp v) := ⟨rfl, cellBits_wellFormed _⟩
theorem lda (v : Word) : Statement (.lda v) := ⟨rfl, cellBits_wellFormed _⟩
theorem sta (v : Word) : Statement (.sta v) := ⟨rfl, cellBits_wellFormed _⟩
theorem ldaImm (v : Word) : Statement (.ldaImm v) := ⟨rfl, cellBits_wellFormed _⟩
theorem add (v : Word) : Statement (.add v) := ⟨rfl, cellBits_wellFormed _⟩
theorem jmp (v : Word) : Statement (.jmp v) := ⟨rfl, cellBits_wellFormed _⟩
theorem sub (v : Word) : Statement (.sub v) := ⟨rfl, cellBits_wellFormed _⟩
theorem cmpImm (v : Word) : Statement (.cmpImm v) := ⟨rfl, cellBits_wellFormed _⟩
theorem beq (v : Word) : Statement (.beq v) := ⟨rfl, cellBits_wellFormed _⟩
theorem skp (v : Word) : Statement (.skp v) := ⟨rfl, cellBits_wellFormed _⟩
theorem jsr (v : Word) : Statement (.jsr v) := ⟨rfl, cellBits_wellFormed _⟩
theorem rtn (v : Word) : Statement (.rtn v) := ⟨rfl, cellBits_wellFormed _⟩
theorem hlt (v : Word) : Statement (.hlt v) := ⟨rfl, cellBits_wellFormed _⟩
theorem err (v : Word) : Statement (.err v) := ⟨rfl, cellBits_wellFormed _⟩
theorem reserved14 (v : Word) : Statement (.reserved14 v) := ⟨rfl, cellBits_wellFormed _⟩
theorem reserved15 (v : Word) : Statement (.reserved15 v) := ⟨rfl, cellBits_wellFormed _⟩

end Sys2Proof.Laws.EncodedWord
end

