-- ==== Sys2Proof/Tests/Slice0.lean ====
section
/-! SUPPORT. Small tests. Expected results come from spec/95_test_vectors.md (its vector is named beside each), or are
worked out by hand from the rule named. Then, for each statement with hypotheses, a state and operands that meet them. -/

namespace Sys2Proof.Tests.Slice0

open Sys2Proof Sys2Proof.Machine Sys2Proof.Certificates.Slice0

/-- A running state at address p with the given ACC, STATUS, TOS and memory. -/
def at' (p acc : Word) (st : BitVec 3) (tos : Word) (m : Memory) : State :=
  { State.reset with pc := p, acc := acc, status := st, tos := tos, mem := m }

/-- The next state, if there is one. -/
def nextOf : Result → Option State
  | .next t => some t
  | .fault _ => none
  | .refused _ => none

/-- PC, ACC, STATUS and CAUSE after one step. -/
def regsAfter (s : State) : Option (Word × Word × BitVec 3 × Cause) :=
  (nextOf (step s)).map fun t => (t.pc, t.acc, t.status, t.cause)

/-- TOS and one cell after one step. -/
def stackAfter (n : Nat) (s : State) : Option (Word × MemCell) :=
  (nextOf (step s)).map fun t => (t.tos, t.cellAt n)

/-- ES, ERR and PC after one step. -/
def endAfter (s : State) : Option (EngineState × BitVec 1 × Word) :=
  (nextOf (step s)).map fun t => (t.es, t.err, t.pc)

/-- A configuration with both parameters away from their defaults: the least width, and `RESET_STATUS` = 100 (GK2). -/
def nineBits : Config := { dataWidth := 9, resetStatus := 0b100 }

/-- A running 9-bit engine with `ADD 4` at cell 2. -/
def running9 (acc : Word 9) (op : BitVec 4) : State 9 :=
  { State.resetAt nineBits with pc := 2, acc := acc, mem := [(2, ⟨op, 4⟩), (4, ⟨0, 1⟩)] }

/-! ### Well-formedness: each check refuses an ill-formed term -/

/-- R45: bit 36 lies outside a cell. -/
theorem test_wordWellFormed_refuses : wordWellFormed 0x1000000000 = false := by decide
/-- R21: two flags at once. -/
theorem test_statusLegal_refuses : statusLegal 0b110 = false := by decide
/-- R7: 8 bits are too few. -/
theorem test_widthLegal_refuses : widthLegal 8 = false ∧ widthLegal Config.defaultWidth = true := by decide
/-- R6, R7, D19: 8 bits, and a `RESET_STATUS` of two flags, are no legal configuration; the default is one. -/
theorem test_config_refuses :
    { Config.default with dataWidth := 8 }.wellFormed = false ∧ { Config.default with resetStatus := 0b011 }.wellFormed = false ∧
    Config.default.wellFormed = true := by decide
/-- R114: 19 cells. -/
theorem test_imageFull_refuses : imageFull (List.replicate 19 (unlistedCell : MemCell)) = false := by decide
/-- R118: ERR at cell 0, and operand 0 at cell 0. -/
theorem test_preflightOk_refuses :
    preflightOk (⟨0b1101, 1⟩ : MemCell) = false ∧ preflightOk (⟨0b0101, 0⟩ : MemCell) = false := by decide
/-- R49: an operand outside 0..19 is no ill-formed instruction. -/
theorem test_wellFormed_accepts : (Instr.lda (20 : Word)).wellFormed = true := by decide

/-! ### Decoding: one word of each family, written from R45 and R46 -/

/-- LS1 `LDA 4`. -/
theorem test_decode_lda : decodeTableWord 36 0b000100000000000000000000000000000100 = some (.lda 4) := by decide
/-- LS16 `LDA# -1`. -/
theorem test_decode_ldaImm : decodeTableWord 40 0x3FFFFFFFF = some (.ldaImm 0xFFFFFFFF) := by decide
/-- LS11 `STA 5`. -/
theorem test_decode_sta : decodeTableWord 36 0x200000005 = some (.sta 5) := by decide
/-- A2 `ADD 4`. -/
theorem test_decode_add : decodeTableWord 36 0b010000000000000000000000000000000100 = some (.add 4) := by decide
/-- B1 `SUB 16`. -/
theorem test_decode_sub : decodeTableWord 36 0x600000010 = some (.sub 16) := by decide
/-- CM5 `CMP# 100`. -/
theorem test_decode_cmpImm : decodeTableWord 36 0x700000064 = some (.cmpImm 100) := by decide
/-- J4 `JMP 20`, Q1 `BEQ 13`. -/
theorem test_decode_jumps :
    decodeTableWord 36 0x500000014 = some (.jmp 20) ∧ decodeTableWord 36 0x80000000D = some (.beq 13) := by decide
/-- K2 `JSR 9`, T5 `RTN 77`. -/
theorem test_decode_stack :
    decodeTableWord 36 0xA00000009 = some (.jsr 9) ∧ decodeTableWord 36 0xB0000004D = some (.rtn 77) := by decide
/-- M2 `SKP 3`, F7 `HLT 99`, M5 `none 6`. -/
theorem test_decode_misc :
    decodeTableWord 36 0x900000003 = some (.skp 3) ∧ decodeTableWord 36 0xC00000063 = some (.hlt 99) ∧
    decodeTableWord 36 0x000000006 = some (.noneOp 6) := by decide
/-- M7, M8, M9. -/
theorem test_decode_illegal :
    decodeTableWord 36 0xD00000000 = some (.err 0) ∧ decodeTableWord 36 0xE00000000 = some (.reserved14 0) ∧
    decodeTableWord 36 0xF00000003 = some (.reserved15 3) := by decide
/-- A number with bit 36 set is rejected by name (log 16). -/
theorem test_decode_rejects : decodeTableWord 40 0x1000000000 = none := by decide
/-- R45's own example: LDA# 5 is 0x300000005. -/
theorem test_encode : encodeBits (.ldaImm (5 : Word)) = 0x300000005 := by decide

/-! ### The step (V-FETCH) -/

/-- F3: PC = 20. -/
theorem test_fetch_twenty : regsAfter (at' 20 7 0 20 []) = some (20, 7, 0, .fetchAddress) := by decide
/-- F4: PC = -1. -/
theorem test_fetch_negative : endAfter (at' (-1) 0 0 20 []) = some (.haltedError, 1, 0xFFFFFFFF) := by decide
/-- F8, F9: no step. -/
theorem test_no_step :
    nextOf (step { State.reset with es := .haltedNormal }) = none ∧ nextOf (step { State.reset with es := .idle }) = none := by
  decide

/-! ### Loads and stores (V-LS) -/

/-- LS4: 200 sets V without a fault. -/
theorem test_lda_v : regsAfter (at' 1 0 0 20 [(1, ⟨1, 5⟩), (5, ⟨0, 200⟩)]) = some (2, 200, 0b001, .none) := by decide
/-- LS7: `LDA 20`. -/
theorem test_lda_invalid : regsAfter (at' 1 9 0 20 [(1, ⟨1, 20⟩)]) = some (2, 9, 0, .dataAddress) := by decide
/-- LS10: the opcode of the cell is kept. -/
theorem test_sta_keeps_op : stackAfter 5 (at' 2 7 0 20 [(2, ⟨2, 5⟩), (5, ⟨5, 9⟩)]) = some (20, ⟨5, 7⟩) := by decide
/-- LS13: `STA 20`. -/
theorem test_sta_invalid : regsAfter (at' 2 4 0 20 [(2, ⟨2, 20⟩)]) = some (3, 4, 0, .dataAddress) := by decide
/-- LS18: `LDA# 128`. -/
theorem test_ldaImm_v : regsAfter (at' 1 0 0 20 [(1, ⟨3, 128⟩)]) = some (2, 128, 0b001, .none) := by decide
/-- LS19: `LDA# -200`. -/
theorem test_ldaImm_n : regsAfter (at' 1 0 0 20 [(1, ⟨3, -200⟩)]) = some (2, -200, 0b010, .none) := by decide

/-! ### ALU (V-ALU) -/

/-- A2: 127 + 1. -/
theorem test_add_overflow :
    regsAfter (at' 2 127 0 20 [(2, ⟨4, 4⟩), (4, ⟨0, 1⟩)]) = some (3, 128, 0b001, .arithOverflow) := by decide
/-- A9: the wrap at W bits. -/
theorem test_add_wraps :
    regsAfter (at' 2 0x7FFFFFFF 0 20 [(2, ⟨4, 4⟩), (4, ⟨0, 1⟩)]) = some (3, 0x80000000, 0b010, .none) := by decide
/-- B5: -128 - 1. -/
theorem test_sub_quirk :
    regsAfter (at' 2 (-128) 0 20 [(2, ⟨6, 4⟩), (4, ⟨0, 1⟩)]) = some (3, -129, 0b010, .none) := by decide
/-- B8: the wrap at W bits. -/
theorem test_sub_wraps :
    regsAfter (at' 2 0x80000000 0 20 [(2, ⟨6, 4⟩), (4, ⟨0, 1⟩)]) = some (3, 0x7FFFFFFF, 0b001, .arithOverflow) := by decide
/-- CM4: V without a fault. -/
theorem test_cmpImm_v : regsAfter (at' 2 127 0 20 [(2, ⟨7, -1⟩)]) = some (3, 127, 0b001, .none) := by decide
/-- CM8: the literal is no address. -/
theorem test_cmpImm_n : regsAfter (at' 2 3 0 20 [(2, ⟨7, 25⟩)]) = some (3, 3, 0b010, .none) := by decide

/-- A2's sum at W = 9 (R7: nine bits hold the 128), and B5's difference. -/
theorem test_nine_bits :
    (match stepAt (running9 127 4) with | .next t => some (t.pc, t.acc, t.status, t.cause) | _ => none) =
      some ((3 : Word 9), (128 : Word 9), 0b001, Cause.arithOverflow) ∧
    (match stepAt (running9 (-128) 6) with | .next t => some (t.pc, t.acc, t.status, t.cause) | _ => none) =
      some ((3 : Word 9), (-129 : Word 9), 0b010, Cause.none) := by decide
/-- Q8 on the machine of a configuration whose `RESET_STATUS` is 100: BEQ 7 at cell 0 is taken in the first step. -/
theorem test_config_reset_status :
    (match stepAt { State.resetAt nineBits with mem := [(0, ⟨8, 7⟩)] } with | .next t => some t.pc | _ => none) =
      some (7 : Word 9) := by decide

/-! ### Control transfer (V-CT) -/

/-- J4: `JMP 20` is no fault. -/
theorem test_jmp_outside : regsAfter (at' 5 0 0 20 [(5, ⟨5, 20⟩)]) = some (20, 0, 0, .none) := by decide
/-- Q1. -/
theorem test_beq_taken : regsAfter (at' 5 0 0b100 20 [(5, ⟨8, 13⟩)]) = some (13, 0, 0b100, .none) := by decide
/-- Q4: V is not Z. -/
theorem test_beq_passed : regsAfter (at' 5 0 0b001 20 [(5, ⟨8, 13⟩)]) = some (6, 0, 0b001, .none) := by decide
/-- K5: the push lands on the JSR's own cell. -/
theorem test_jsr_own_cell : stackAfter 19 (at' 19 0 0 20 [(19, ⟨10, 3⟩)]) = some (19, ⟨10, 20⟩) := by decide
/-- K4: a full stack. -/
theorem test_jsr_full : regsAfter (at' 4 0 0 0 [(4, ⟨10, 9⟩)]) = some (5, 0, 0, .stackOverflow) := by decide
/-- T4: a popped value outside memory; T5's operand is ignored. -/
theorem test_rtn : regsAfter (at' 6 0 0 18 [(6, ⟨11, 77⟩), (18, ⟨0, 40⟩)]) = some (40, 0, 0, .none) := by decide
/-- T3: an empty stack. -/
theorem test_rtn_empty : regsAfter (at' 6 0 0 20 [(6, ⟨11, 0⟩)]) = some (7, 0, 0, .stackUnderflow) := by decide

/-! ### SKP, HLT, none, ERR, reserved (V-MISC) -/

/-- M2: `SKP 3` at 7. -/
theorem test_skp : regsAfter (at' 7 0 0 20 [(7, ⟨9, 3⟩)]) = some (8, 0, 0, .none) := by decide
/-- M6: none at 19 leaves PC = 20. -/
theorem test_none : regsAfter (at' 19 0 0 20 []) = some (20, 0, 0, .none) := by decide
/-- F7: `HLT 99` at 3. -/
theorem test_hlt : endAfter (at' 3 0 0 18 [(3, ⟨12, 99⟩)]) = some (.haltedNormal, 0, 3) := by decide
/-- M7: ERR at 0. -/
theorem test_err : regsAfter (at' 0 0 0 20 [(0, ⟨13, 0⟩)]) = some (1, 0, 0, .illegalOpcode) := by decide
/-- M8: opcode 14. -/
theorem test_reserved14 : regsAfter (at' 5 0 0 20 [(5, ⟨14, 0⟩)]) = some (6, 0, 0, .illegalOpcode) := by decide
/-- M9: opcode 15. -/
theorem test_reserved15 : regsAfter (at' 5 0 0 20 [(5, ⟨15, 3⟩)]) = some (6, 0, 0, .illegalOpcode) := by decide

/-! ### The host (V-HOST) -/

/-- A stopped state with flags, ERR and CAUSE set, as S2 leaves them. -/
def stopped : State :=
  { State.reset with acc := 128, pc := 3, status := 0b001, err := 1, cause := .arithOverflow, es := .haltedError }

/-- The same with the given memory. -/
def stoppedWith (m : Memory) : State := { stopped with mem := m }

/-- HS1: START, here over the memory S2 leaves in cell 4. -/
theorem test_start :
    (hostOp .start (stoppedWith [(4, ⟨0, 1⟩)])).1 = { State.reset with mem := [(4, ⟨0, 1⟩)] } := by decide
/-- Q8: `RESET_STATUS` = 100 and BEQ 7 at cell 0. -/
theorem test_reset_status :
    regsAfter (hostOpWith 0b100 .start (stoppedWith [(0, ⟨8, 7⟩)])).1 = some (7, 0, 0b100, .none) := by decide
/-- HS3, HS4, HS5, HS6: while RUNNING. -/
theorem test_host_running :
    hostOp .start State.reset = (State.reset, none) ∧ hostOp (.loadCell 3 12 0) State.reset = (State.reset, none) ∧
    hostOp .readRegs State.reset = (State.reset, none) ∧ hostOp .readEs State.reset = (State.reset, some (.es 1)) := by decide
/-- HS7, HS8: addresses. -/
theorem test_loadCell :
    (hostOp (.loadCell 20 1 0) stopped).1 = stopped ∧ (hostOp (.loadCell 4 0 10) stopped).1.cellAt 4 = ⟨0, 10⟩ := by decide
/-- READ_REGS of the stopped state: CAUSE reads 1 (R97). -/
theorem test_readRegs : (hostOp .readRegs stopped).2 = some (.regs 128 3 20 0b001 1 1) := by decide
/-- U13: an image with cells missing is not launched. -/
theorem test_boot_refuses : nextOf (boot [⟨5, 1⟩] stopped) = none := by decide

/-! ### Witnesses: the hypotheses of the statements can be met -/

/-- A 9-bit engine before its first START, with BEQ 7 at cell 0. -/
def branch9 : State 9 := { State.resetAt nineBits with es := .idle, mem := [(0, ⟨8, 7⟩)] }

/-- An image of 20 cells that passes the pre-flight check. -/
def image : List MemCell := ⟨5, 1⟩ :: List.replicate 19 ⟨12, 0⟩

/-- A running state that meets the invariant, with `LDA 19` at cell 1. -/
def running : State := at' 1 5 0 20 [(1, ⟨1, 19⟩), (19, ⟨0, 127⟩)]

theorem witness_EncodeOfDecode : 0xFFFFFFFFF < 2 ^ Config.cellWidth := by decide
theorem witness_UnusedOperandMakesNoDifference :
    (operandUse (.rtn (1 : Word)) = .ignored ∧ (Instr.rtn (1 : Word)).opcode = (Instr.rtn (2 : Word)).opcode) ∧
    (operandUse (.err (1 : Word)) = .notExecuted ∧ (Instr.err (1 : Word)).opcode = (Instr.err (2 : Word)).opcode) := by decide
theorem witness_StepRunsFetchedInstruction : running.es = .running ∧ inMemory running.pc := by decide
/-- The bounds of the fetch check: 0 and 19 inside, -1 and 20 outside. -/
theorem witness_inMemory_bounds : inMemory (0 : Word) ∧ inMemory (19 : Word) ∧ ¬ inMemory (20 : Word) ∧ ¬ inMemory (-1 : Word) := by decide
theorem witness_FetchOutsideMemoryFaults :
    (at' 20 0 0 20 []).es = .running ∧ ¬ inMemory (at' 20 0 0 20 []).pc := by decide
theorem witness_NoStepUnlessRunning :
    { State.reset with es := .idle }.es = .idle ∧ { State.reset with es := .haltedNormal }.es = .haltedNormal ∧
    stopped.es = .haltedError := by decide
theorem witness_RunningEngineAlwaysSteps : running.inv ∧ running.es = .running := by decide
theorem witness_EngineStateTransitions :
    running.inv ∧ nextOf (step running) ≠ none ∧ stopped.es ≠ .running := by decide
theorem witness_StepKeepsInvariant : ∃ s t : State, s.inv ∧ step s = .next t :=
  ⟨running, _, by decide, rfl⟩
theorem witness_StepKeepsInvariant_width : ∃ s t : State 9, 9 ≤ 9 ∧ s.inv ∧ stepAt s = .next t :=
  ⟨running9 127 4, _, by decide, by decide, rfl⟩
theorem witness_ResetMeetsInvariant : nineBits.wellFormed = true ∧ 9 ≤ nineBits.dataWidth := by decide
theorem witness_StepsNeverWriteOpcodes : ∃ s t : State, s.mem.wf ∧ step s = .next t :=
  ⟨at' 1 7 0 20 [(1, ⟨2, 2⟩)], _, by decide, rfl⟩
theorem witness_StartThenFirstStep : stopped.es ≠ .running := by decide
theorem witness_OldIrIsNeverRead : running.es = .running ∧ inMemory running.pc := by decide
/-- `STA 2` at 1, which stores into the next cell. -/
theorem witness_StoreSeenByNextFetch :
    ∃ s t : State, s.mem.wf ∧ s.es = .running ∧ inMemory s.pc ∧ inMemory (2 : Word) ∧
      s.cellAt (cellIndex s.pc) = { op := 0b0010, opd := 2 } ∧ step s = .next t ∧ t.pc = 2 :=
  ⟨at' 1 7 0 20 [(1, ⟨2, 2⟩)], _, by decide, by decide, by decide, by decide, by decide, rfl, by decide⟩
theorem witness_PushOnOwnCellKeepsTarget :
    (at' 19 0 0 20 [(19, ⟨10, 3⟩)]).mem.wf ∧ (at' 19 0 0 20 [(19, ⟨10, 3⟩)]).cellAt 19 = { op := 0b1010, opd := 3 } ∧
    (20 : Word) = 19 + 1 := by decide
/-- A jump, a taken branch and a call to 20. -/
theorem witness_BadTargetFaultsAtNextFetch :
    (at' 5 0 0b100 20 []).inv ∧ (at' 5 0 0b100 20 []).es = .running ∧ ¬ inMemory (20 : Word) ∧
    nextOf (exec (.jmp 20) (at' 5 0 0b100 20 [])) ≠ none ∧ nextOf (exec (.beq 20) (at' 5 0 0b100 20 [])) ≠ none ∧
    nextOf (exec (.jsr 20) (at' 5 0 0b100 20 [])) ≠ none ∧ 0 < (at' 5 0 0b100 20 []).tos.toInt := by decide
theorem witness_JumpToItselfNeverEnds :
    (at' 5 0 0 20 [(5, ⟨5, 5⟩)]).es = .running ∧ inMemory (at' 5 0 0 20 [(5, ⟨5, 5⟩)]).pc ∧
    (at' 5 0 0 20 [(5, ⟨5, 5⟩)]).cellAt 5 = { op := 0b0101, opd := (at' 5 0 0 20 [(5, ⟨5, 5⟩)]).pc } := by decide
theorem witness_ReachableStatesMeetInvariant : nineBits.wellFormed = true ∧ Reachable nineBits { State.resetAt nineBits with es := .idle } :=
  ⟨by decide, .powerOn ⟨rfl, State.resetAt_mem_wf _⟩⟩
/-- A reachable state after START. -/
theorem witness_StatusAlwaysLegal :
    ∃ s : State 9, nineBits.resetStatus = 0b100 ∧ Reachable nineBits s ∧ s.es ≠ .idle :=
  ⟨_, rfl, .host .start (.powerOn (s := { State.resetAt nineBits with es := .idle }) ⟨rfl, State.resetAt_mem_wf _⟩), by decide⟩
/-- Each clause of the flag table at its bounds, 9 bits wide. -/
theorem witness_FlagPriority :
    (0 : BitVec 9).toInt = 0 ∧ (-1 : BitVec 9).toInt < 0 ∧ (-129 : BitVec 9).toInt < 0 ∧
    (1 ≤ (1 : BitVec 9).toInt ∧ (127 : BitVec 9).toInt ≤ 127) ∧ 128 ≤ (128 : BitVec 9).toInt := by decide
/-- A sum that fits at 9 bits, at the upper bound, and a difference at the lower. -/
theorem witness_SignedArithmetic :
    ((200 : BitVec 9).toInt + (55 : BitVec 9).toInt < 2 ^ (9 - 1)) ∧
    (-(2 ^ (9 - 1)) ≤ (-200 : BitVec 9).toInt - (56 : BitVec 9).toInt) := by decide
theorem witness_NineBitsHoldTheOverflow :
    9 ≤ 9 ∧ 9 ≤ Config.defaultWidth ∧ inMemory (4 : Word 9) ∧
    ((running9 127 4).cellAt (cellIndex (4 : Word 9))).opd = 1 ∧ (running9 127 4).acc = 127 ∧
    (running9 (-128) 6).acc = -128 := by decide
/-- A result above 127 and one below -128, each from ADD and from SUB. -/
theorem witness_OverflowIsResultAbove127 :
    (nextOf (exec (.add 4) (at' 2 127 0 20 [(4, ⟨0, 1⟩)]))).map (fun t => decide (127 < t.acc.toInt)) = some true ∧
    (nextOf (exec (.add 4) (at' 2 (-128) 0 20 [(4, ⟨0, -1⟩)]))).map (fun t => decide (t.acc.toInt < -128)) = some true ∧
    (nextOf (exec (.sub 4) (at' 2 127 0 20 [(4, ⟨0, -1⟩)]))).map (fun t => decide (127 < t.acc.toInt)) = some true ∧
    (nextOf (exec (.sub 4) (at' 2 (-128) 0 20 [(4, ⟨0, 1⟩)]))).map (fun t => decide (t.acc.toInt < -128)) = some true := by decide
/-- LDA's clauses at the bounds of the valid addresses. -/
theorem witness_LdaResult : inMemory (0 : Word) ∧ inMemory (19 : Word) ∧ ¬ inMemory (20 : Word) ∧ ¬ inMemory (-1 : Word) := by decide
/-- A valid and an invalid operand address, over memory in canonical form. -/
theorem witness_StaResult : running.mem.wf ∧ inMemory (0 : Word) ∧ inMemory (19 : Word) ∧ ¬ inMemory (20 : Word) := by decide
/-- ADD's sums 127 and 128, and an invalid address. -/
theorem witness_AddResult :
    (127 : Word) = (at' 2 126 0 20 [(4, ⟨0, 1⟩)]).acc + ((at' 2 126 0 20 [(4, ⟨0, 1⟩)]).cellAt (cellIndex (4 : Word))).opd ∧
    (127 : Word).toInt ≤ 127 ∧
    (128 : Word) = (at' 2 127 0 20 [(4, ⟨0, 1⟩)]).acc + ((at' 2 127 0 20 [(4, ⟨0, 1⟩)]).cellAt (cellIndex (4 : Word))).opd ∧
    127 < (128 : Word).toInt ∧ inMemory (4 : Word) ∧ ¬ inMemory (-1 : Word) := by decide
/-- SUB's differences 127 and 128. -/
theorem witness_SubResult :
    (127 : Word) = (at' 2 126 0 20 [(4, ⟨0, -1⟩)]).acc - ((at' 2 126 0 20 [(4, ⟨0, -1⟩)]).cellAt (cellIndex (4 : Word))).opd ∧
    (128 : Word) = (at' 2 127 0 20 [(4, ⟨0, -1⟩)]).acc - ((at' 2 127 0 20 [(4, ⟨0, -1⟩)]).cellAt (cellIndex (4 : Word))).opd := by
  decide
/-- TOS at the bounds of JSR's clauses: 0, 1 and 20. -/
theorem witness_JsrResult :
    (at' 4 0 0 0 []).tos.toInt ≤ 0 ∧ 1 ≤ (at' 4 0 0 1 []).tos.toInt ∧ (at' 4 0 0 20 []).tos.toInt ≤ 20 ∧
    1 ≤ (at' 4 0 0 20 []).tos.toInt ∧ (at' 4 0 0 1 []).mem.wf := by decide
/-- TOS at the bounds of RTN's clauses: 0, 19 and 20. -/
theorem witness_RtnResult :
    0 ≤ (at' 4 0 0 0 []).tos.toInt ∧ (at' 4 0 0 19 []).tos.toInt ≤ 19 ∧ 20 ≤ (at' 4 0 0 20 []).tos.toInt := by decide
theorem witness_StackCellOutsideMemoryStops :
    20 < (at' 4 0 0 21 []).tos.toInt ∧ (at' 4 0 0 (-1) []).tos.toInt < 0 := by decide
/-- Each frame's instructions reach a next state: in their own effect, and in the fault of LDA, STA, ADD, JSR and RTN. -/
theorem witness_AccumulatorInstructionFrame :
    ([.lda 4, .ldaImm 4, .add 4, .sub 4, .lda 20, .add 19] : List Instr).all (fun i => (nextOf (exec i running)).isSome) = true := by
  decide
theorem witness_PcAndFlagInstructionFrame :
    ([.cmpImm 4, .jmp 4, .beq 4, .skp 4, .noneOp 4] : List Instr).all (fun i => (nextOf (exec i running)).isSome) = true := by
  decide
theorem witness_StoreFrame :
    ([.sta 4, .sta 20] : List Instr).all (fun i => (nextOf (exec i running)).isSome) = true := by decide
theorem witness_CallAndReturnFrame :
    ([at' 1 0 0 0 [], at' 1 0 0 1 [], at' 1 0 0 20 []] : List State).all
      (fun s => (nextOf (exec (.jsr 4) s)).isSome && (nextOf (exec (.rtn 4) s)).isSome) = true := by decide
theorem witness_StoppingInstructionFrame :
    ([.hlt 4, .err 4, .reserved14 4, .reserved15 4] : List Instr).all (fun i => (nextOf (exec i running)).isSome) = true := by
  decide
theorem witness_PcAdvance : inMemory (0 : Word) ∧ inMemory (19 : Word) ∧
    (nextOf (exec (.skp 0) (at' 19 0 0 20 []))).isSome = true ∧ (nextOf (exec (.hlt 0) running)).isSome = true := by decide
/-- What RegisterWriters and MemoryWriters speak of is written somewhere: a cell by STA and by JSR, and each register. -/
theorem witness_RegisterWriters_MemoryWriters :
    (nextOf (exec (.sta 4) running)).map (fun t => decide (t.cellAt 4 ≠ running.cellAt 4)) = some true ∧
    (nextOf (exec (.jsr 4) running)).map (fun t => decide (t.cellAt 19 ≠ running.cellAt 19 ∧ t.tos ≠ running.tos)) = some true ∧
    (nextOf (exec (.ldaImm 0) running)).map (fun t => decide (t.acc ≠ running.acc ∧ t.status ≠ running.status)) = some true ∧
    (nextOf (exec (.err 0) running)).map (fun t => decide (t.err ≠ running.err)) = some true := by decide
theorem witness_EqualReadsEqualMemories : Memory.wf ([(3, ⟨1, 2⟩), (19, ⟨0, 5⟩)] : Memory) := by decide
/-- A JSR with TOS = 20, and a later state with the same TOS and return address. -/
theorem witness_CallReturnRoundTrip :
    ∃ s u v : State, s.mem.wf ∧ 1 ≤ s.tos.toInt ∧ s.tos.toInt ≤ 20 ∧ exec (.jsr 5) s = .next u ∧ v.tos = u.tos ∧
      (v.cellAt (cellIndex v.tos)).opd = (u.cellAt (cellIndex u.tos)).opd ∧ cellIndex u.tos = 19 :=
  ⟨at' 2 0 0 20 [], _, at' 9 1 0 19 [(19, ⟨0, 3⟩)], by decide, by decide, by decide, rfl, by decide, by decide, by decide⟩
/-- Each cause is raised by a step from a running state that meets the invariant. -/
theorem witness_FaultCauses_fetch :
    (at' 20 0 0 20 []).inv ∧ regsAfter (at' 20 0 0 20 []) = some (20, 0, 0, .fetchAddress) := by decide
theorem witness_FaultCauses_opcode : (at' 5 0 0 20 [(5, ⟨14, 0⟩)]).inv := by decide
theorem witness_FaultCauses_data : (at' 1 9 0 20 [(1, ⟨1, 20⟩)]).inv := by decide
theorem witness_FaultCauses_stack :
    (at' 4 0 0 0 [(4, ⟨10, 9⟩)]).inv ∧ (at' 6 0 0 20 [(6, ⟨11, 0⟩)]).inv := by decide
theorem witness_FaultCauses_overflow : (at' 2 127 0 20 [(2, ⟨4, 4⟩), (4, ⟨0, 1⟩)]).inv := by decide
theorem witness_FaultsArePrecise :
    (at' 2 127 0 20 [(2, ⟨4, 4⟩), (4, ⟨0, 1⟩)]).inv ∧
    endAfter (at' 2 127 0 20 [(2, ⟨4, 4⟩), (4, ⟨0, 1⟩)]) = some (.haltedError, 1, 3) := by decide
/-- A stopped engine, with the addresses 0 and 19 allowed and -1 and 20 not, and a running one. -/
theorem witness_HostOperations :
    stopped.mem.wf ∧ hostAllowed (.readCell 0) stopped = true ∧ hostAllowed (.readCell 19) stopped = true ∧
    hostAllowed (.readCell 20) stopped = false ∧ hostAllowed (.readCell (-1)) stopped = false ∧
    State.reset.es = .running := by decide
/-- The three images that fail the pre-flight check. -/
theorem witness_StartMakesNoPreflightCheck :
    ((stoppedWith [(0, ⟨13, 0⟩)]).cellAt 0).op = 0b1101 ∧ stopped.cellAt 0 = { op := 0b0000, opd := 0 } ∧
    (stoppedWith [(0, ⟨5, 0⟩)]).cellAt 0 = { op := 0b0101, opd := 0 } := by decide
theorem witness_ResetStatusDecidesFirstBranch :
    (stoppedWith [(0, ⟨8, 7⟩)]).cellAt 0 = { op := 0b1000, opd := 7 } ∧
    branch9.cellAt 0 = { op := 0b1000, opd := 7 } ∧ stopped.es ≠ .running ∧ branch9.es ≠ .running ∧
    9 ≤ nineBits.dataWidth := by decide
theorem witness_BootLoadsImage :
    stopped.mem.wf ∧ stopped.es ≠ .running ∧ image.length = 20 ∧
    ∀ c, image[0]? = some c → c.op ≠ 0b1101 ∧ c.opd ≠ 0 :=
  ⟨by decide, by decide, by decide, fun c h => by cases h; decide⟩
/-- An image that is not full; a full one with ERR, and one with operand 0, at cell 0. -/
theorem witness_BootRefusesBadImage :
    ([] : List MemCell).length ≠ 20 ∧ (List.replicate 20 (⟨13, 1⟩ : MemCell)).length = 20 ∧
    (List.replicate 20 (⟨5, 0⟩ : MemCell))[0]? = some ⟨5, 0⟩ := by decide
theorem witness_PlacedInstructionRunsNext :
    running.mem.wf ∧ decodeTableWord 36 0xC00000000 = some (.hlt 0) ∧ inMemory running.pc := by decide

end Sys2Proof.Tests.Slice0
end

section
/-! Decoding undoes encoding, at every width (spec/30_encoding.md R45, R46). -/

namespace Sys2Proof

variable {W : Nat}

/-- R46: the row that an instruction's opcode value selects is the instruction's own. -/
@[simp] theorem decodeCell_encode (i : Instr W) : decodeCell (encode i) = i := by
  cases i <;> rfl

/-- R45: a cell's bits fit in W + 4 bits. -/
theorem cellBits_lt (c : MemCell W) : cellBits c < 2 ^ Config.cellWidthAt W := by
  have hop : c.op.toNat + 1 ≤ 2 ^ 4 := c.op.isLt
  calc c.op.toNat * 2 ^ W + c.opd.toNat
      < c.op.toNat * 2 ^ W + 2 ^ W := Nat.add_lt_add_left c.opd.isLt _
    _ = (c.op.toNat + 1) * 2 ^ W := (Nat.succ_mul _ _).symm
    _ ≤ 2 ^ 4 * 2 ^ W := Nat.mul_le_mul_right _ hop
    _ = 2 ^ Config.cellWidthAt W := (pow_add 2 4 W).symm

/-- R45: splitting the bits of a cell gives the cell's two fields back. -/
@[simp] theorem cellOfBits_cellBits (c : MemCell W) : cellOfBits (cellBits c) = c := by
  have hop : cellBits c / 2 ^ W = c.op.toNat := by
    rw [cellBits, Nat.mul_comm, Nat.mul_add_div (Nat.two_pow_pos W), Nat.div_eq_of_lt c.opd.isLt, Nat.add_zero]
  have hopd : BitVec.ofNat W (cellBits c) = c.opd := BitVec.eq_of_toNat_eq <| by
    rw [BitVec.toNat_ofNat, cellBits, Nat.mul_add_mod_self_right, Nat.mod_eq_of_lt c.opd.isLt]
  rw [cellOfBits, hop, hopd, BitVec.ofNat_toNat, BitVec.setWidth_eq]

/-- The bits of an instruction decode to it. -/
theorem decodeBits_encodeBits (i : Instr W) : decodeBits (encodeBits i) = .ok i := by
  rw [encodeBits, decodeBits, if_pos (cellBits_lt _), cellOfBits_cellBits, decodeCell_encode]

/-- The default machine's decoder reads an instruction from its bits. -/
theorem decodeTableWord_encodeBits (n : Nat) (i : Instr) : decodeTableWord n (encodeBits i) = some i := by
  rw [decodeTableWord, decodeBits_encodeBits]

/-- Settles O1: R46's table is inverted row by row, R45's bit layout by division with remainder. -/
theorem decodeOfEncode : Obligations.DecodeOfEncode :=
  ⟨fun i => ⟨cellBits_lt (encode i), decodeTableWord_encodeBits _ i⟩,
    fun _ i => ⟨decodeCell_encode i, cellBits_lt (encode i), decodeBits_encodeBits i⟩⟩

end Sys2Proof
end

section
/-! The step by its next state, and what an instruction does to each part of the invariant. -/

namespace Sys2Proof.Machine

variable {W : Nat}

/-- The inversion of a step: the engine was running, and the step was R61's fetch fault or ran the cell at PC. -/
theorem stepAt_next {s t : State W} (h : stepAt s = .next t) :
    s.es = .running ∧
      ((valid s.pc = false ∧ t = raiseFault .fetchAddress s) ∨
       (valid s.pc = true ∧
        ExecNext (decodeCell (s.cellAt (cellIndex s.pc))) (s.setIr (s.cellAt (cellIndex s.pc))) t)) := by
  rcases stepAt_cases s with ⟨_, f, e⟩ | ⟨hes, hv, e⟩ | ⟨hes, hv, e⟩ <;> rw [e] at h
  · cases h
  · cases h
    exact ⟨hes, .inl ⟨hv, rfl⟩⟩
  · exact ⟨hes, .inr ⟨hv, execNext_of_execAt h⟩⟩

/-- R21: the flag function writes a legal STATUS. -/
theorem statusLegal_flagsOf {w : Nat} (v : BitVec w) : statusLegal (flagsOf v) = true := by
  rcases flagsOf_cases v with ⟨_, e⟩ | ⟨_, e⟩ | ⟨_, e⟩ | ⟨_, e⟩ <;> rw [e] <;> decide

/-- R28: an instruction keeps the memory's canonical form; STA and JSR alone write it, at a checked address. -/
theorem ExecNext.mem_wf {i : Instr W} {s t : State W} (h : ExecNext i s t) (hm : s.mem.wf) : t.mem.wf := by
  cases h with
  | sta a s hv => exact State.writeOpd_wf _ hm (cellIndex_lt hv)
  | jsr v s h1 h20 hv => exact State.writeOpd_wf (s := (advancePc s).setTos _) _ hm (cellIndex_lt hv)
  | _ => exact hm

/-- R22, R87: an instruction keeps TOS in 0..20; JSR and RTN alone write it, after the bound check. -/
theorem ExecNext.tos_range {i : Instr W} {s t : State W} (h : ExecNext i s t) (hW : 9 ≤ W)
    (ht : 0 ≤ s.tos.toInt ∧ s.tos.toInt ≤ 20) : 0 ≤ t.tos.toInt ∧ t.tos.toInt ≤ 20 := by
  cases h with
  | jsr v s h1 h20 hv =>
    have e : (decW s.tos).toInt = s.tos.toInt - 1 := decW_toInt (by omega)
    simp only [State.setPc_tos, State.writeOpd_tos, State.setTos_tos]
    omega
  | rtn v s h0 h19 hv =>
    have e : (incW s.tos).toInt = s.tos.toInt + 1 := incW_toInt_small hW (by omega)
    simp only [State.setTos_tos]
    omega
  | _ => exact ht

/-- R21: an instruction keeps STATUS legal: it leaves STATUS alone or writes the flags of a value. -/
theorem ExecNext.status_legal {i : Instr W} {s t : State W} (h : ExecNext i s t)
    (hs : statusLegal s.status = true) : statusLegal t.status = true := by
  cases h with
  | lda | ldaImm | add | addOverflow | sub | subOverflow | cmpImm => exact statusLegal_flagsOf _
  | _ => exact hs

/-- R26, R27, R96: an instruction ends in a fault, or leaves ERR and CAUSE alone and at most halts normally. -/
theorem ExecNext.fault_or_goesOn {i : Instr W} {s t : State W} (h : ExecNext i s t) :
    (t.err = 1 ∧ t.cause ≠ .none ∧ t.es = .haltedError) ∨
    (t.err = s.err ∧ t.cause = s.cause ∧ (t.es = s.es ∨ t.es = .haltedNormal)) := by
  cases h with
  | ldaFault | staFault | addFault | subFault | addOverflow | subOverflow | jsrFault | rtnFault | err | reserved14
  | reserved15 => exact .inl ⟨rfl, by simp, rfl⟩
  | hlt => exact .inr ⟨rfl, rfl, .inr rfl⟩
  | _ => exact .inr ⟨rfl, rfl, .inl rfl⟩

end Sys2Proof.Machine
end

section
/-! The invariant: each way a state changes keeps it (spec/10_state.md R21, R22, R26 to R28). -/

namespace Sys2Proof.Machine

variable {W : Nat}

/-- R96: a fault sets ERR, CAUSE and ES together, so it keeps the registers' invariant. -/
theorem regsInv_raiseFault {s : State W} {c : Cause} (h : s.regsInv) (hc : c ≠ .none) : (raiseFault c s).regsInv := by
  obtain ⟨htos, hst, _, _⟩ := h
  exact ⟨htos, hst, by simp, by simpa using hc⟩

/-- An instruction run by a running engine keeps the registers' invariant, at every legal width. -/
theorem ExecNext.regsInv {i : Instr W} {s t : State W} (h : ExecNext i s t) (hW : 9 ≤ W) (hes : s.es = .running)
    (hi : s.regsInv) : t.regsInv := by
  obtain ⟨htos, hst, herr, hcause⟩ := hi
  refine ⟨h.tos_range hW htos, h.status_legal hst, ?_⟩
  rcases h.fault_or_goesOn with ⟨e, c, x⟩ | ⟨e, c, x | x⟩
  · simp [e, c, x]
  · rw [e, c, x]
    exact ⟨herr, hcause⟩
  · rw [e, c, x]
    simpa [hes] using And.intro herr hcause

/-- Every step keeps the invariant, at every legal width. -/
theorem stepAt_inv {s t : State W} (hW : 9 ≤ W) (hi : s.inv) (h : stepAt s = .next t) : t.inv := by
  obtain ⟨hmem, hregs⟩ := hi
  obtain ⟨hes, ⟨_, rfl⟩ | ⟨_, hx⟩⟩ := stepAt_next h
  · exact ⟨hmem, fun _ => regsInv_raiseFault (hregs (by simp [hes])) (by decide)⟩
  · exact ⟨hx.mem_wf hmem, fun _ => hx.regsInv hW hes (hregs (by simp [hes]))⟩

/-- R23, R115: the registers after a START meet the invariant, whatever they held before it. -/
theorem regsInv_start {rs : BitVec 3} (s : State W) (hW : 9 ≤ W) (hrs : statusLegal rs = true) :
    (s.start rs).regsInv := by
  have htos : (BitVec.ofNat W Config.hiMem).toInt = 20 := word_toInt_ofNat_small hW (by decide)
  refine ⟨?_, hrs, by simp, by simp⟩
  rw [State.start_tos, htos]
  decide

/-- R23: the state after reset is what a START makes of it (log 6). -/
theorem start_resetAt (cfg : Config) : (State.resetAt cfg).start cfg.resetStatus = State.resetAt cfg := rfl

/-- R6, R7, D19: what a well-formed configuration gives. -/
theorem config_wellFormed_iff (cfg : Config) :
    cfg.wellFormed = true ↔ 9 ≤ cfg.dataWidth ∧ statusLegal cfg.resetStatus = true := by
  simp [Config.wellFormed, widthLegal]

/-- The machine after reset meets the invariant, for every well-formed configuration. -/
theorem resetAt_inv {cfg : Config} (h : cfg.wellFormed = true) : (State.resetAt cfg).inv := by
  obtain ⟨hW, hrs⟩ := (config_wellFormed_iff cfg).mp h
  exact ⟨State.resetAt_mem_wf cfg, fun _ => start_resetAt cfg ▸ regsInv_start (State.resetAt cfg) hW hrs⟩

/-- R113: all that a host operation can do to the state: nothing, or, unless the engine is running, a START or a load of
one of the 20 cells. -/
theorem hostOpWith_state_cases (rs : BitVec 3) (o : HostOp W) (s : State W) :
    (hostOpWith rs o s).1 = s ∨
    (s.es ≠ .running ∧ (hostOpWith rs o s).1 = s.start rs) ∨
    (s.es ≠ .running ∧ ∃ n c, n < Config.hiMem ∧ (hostOpWith rs o s).1 = s.loadCell n c) := by
  unfold hostOpWith
  split
  · next ha =>
    cases o with
    | loadCell a op opd =>
      have hp : s.es ≠ .running ∧ 0 ≤ a ∧ a ≤ 19 := by simpa [hostAllowed] using ha
      obtain ⟨hes, h0, h19⟩ := hp
      exact .inr (.inr ⟨hes, a.toNat, _, by simp only [hiMem_eq]; omega, rfl⟩)
    | start => exact .inr (.inl ⟨by simpa [hostAllowed] using ha, rfl⟩)
    | readCell | readRegs | readEs => exact .inl rfl
  · exact .inl rfl

/-- R113: a START of an engine that is not running takes place, and returns nothing. -/
theorem hostOpWith_start {rs : BitVec 3} {s : State W} (h : s.es ≠ .running) :
    hostOpWith rs .start s = (s.start rs, none) :=
  if_pos (by simpa [hostAllowed] using h)

/-- Every host operation keeps the invariant, at every legal width and `RESET_STATUS`. -/
theorem hostOpWith_inv {rs : BitVec 3} (o : HostOp W) {s : State W} (hW : 9 ≤ W) (hrs : statusLegal rs = true)
    (hi : s.inv) : (hostOpWith rs o s).1.inv := by
  obtain ⟨hmem, hregs⟩ := hi
  rcases hostOpWith_state_cases rs o s with e | ⟨_, e⟩ | ⟨_, n, c, hn, e⟩ <;> rw [e]
  · exact ⟨hmem, hregs⟩
  · exact ⟨hmem, fun _ => regsInv_start s hW hrs⟩
  · exact ⟨State.loadCell_wf c hmem hn, hregs⟩

/-- Every state that can occur meets the invariant: power-on does, and host operations and steps keep it. -/
theorem Reachable.inv {cfg : Config} (hcfg : cfg.wellFormed = true) {s : State cfg.dataWidth} (h : Reachable cfg s) :
    s.inv := by
  obtain ⟨hW, hrs⟩ := (config_wellFormed_iff cfg).mp hcfg
  induction h with
  | powerOn hp => exact ⟨hp.2, fun hne => absurd hp.1 hne⟩
  | host o _ ih => exact hostOpWith_inv o hW hrs ih
  | step _ hs ih => exact stepAt_inv hW ih hs

/-- Settles O17, by what an instruction does to memory, TOS, STATUS and the fault registers. -/
theorem stepKeepsInvariant : Obligations.StepKeepsInvariant :=
  ⟨fun s _ hi h => stepAt_inv (by decide) hi ((stepAt_eq_step s).trans h),
    fun _ hW _ _ hi h => stepAt_inv hW hi h, stepAt_eq_step⟩

/-- Settles O19, by induction on how the state was reached. -/
theorem reachableStatesMeetInvariant : Obligations.ReachableStatesMeetInvariant :=
  fun _ hcfg _ h => h.inv hcfg

/-- Settles O18: reset is a START over empty memory. -/
theorem resetMeetsInvariant : Obligations.ResetMeetsInvariant :=
  ⟨resetAt_inv (cfg := Config.default) (by decide), fun _ => resetAt_inv⟩

/-- Settles O21: by reading off the fields; TOS = 20 fits every width from 9 on. -/
theorem resetState : Obligations.ResetState :=
  ⟨rfl, rfl, by decide, rfl, rfl, rfl, rfl, rfl, fun _ => rfl,
    fun _ hW => ⟨rfl, rfl, word_toInt_ofNat_small hW (by decide), rfl, rfl, rfl, rfl, rfl, fun _ => rfl⟩⟩

end Sys2Proof.Machine
end

section
/-! Signed arithmetic and the flags at the edge of the 8-bit range (spec/00_scope.md R7, R9; spec/42_alu.md R77, R78). -/

namespace Sys2Proof.Machine

/-- R9: the word made from an integer has that integer's value, up to a multiple of 2^W. -/
theorem exists_toInt_ofInt_eq_add_mul (w : Nat) (n : Int) : ∃ k : Int, (BitVec.ofInt w n).toInt = n + k * 2 ^ w := by
  refine ⟨-n.bdiv (2 ^ w), ?_⟩
  rw [BitVec.toInt_ofInt, Int.bmod_eq_self_sub_mul_bdiv]
  push_cast
  ring

/-- Settles O23: both operations are `w(n)` of the exact result n. -/
theorem signedArithmetic : Obligations.SignedArithmetic :=
  fun w a b hw => ⟨addW_eq a b, subW_eq a b, exists_toInt_ofInt_eq_add_mul w _, exists_toInt_ofInt_eq_add_mul w _,
    fun h => word_toInt_ofInt hw h.1 h.2, fun h => word_toInt_ofInt hw h.1 h.2⟩

/-- R74: V is written for a value above 127. -/
theorem flagsOf_of_gt {w : Nat} {v : BitVec w} (h : 127 < v.toInt) : flagsOf v = 0b001 := by
  rcases flagsOf_cases v with ⟨h', _⟩ | ⟨h', _⟩ | ⟨_, e⟩ | ⟨h', _⟩
  · omega
  · omega
  · exact e
  · omega

/-- R74, R75: N is written for every negative value. -/
theorem flagsOf_of_neg {w : Nat} {v : BitVec w} (h : v.toInt < 0) : flagsOf v = 0b010 := by
  rcases flagsOf_cases v with ⟨h', _⟩ | ⟨_, e⟩ | ⟨h', _⟩ | ⟨h', _⟩
  · omega
  · exact e
  · omega
  · omega

/-- R7: from nine bits on, 127 + 1 does not wrap. -/
theorem addW_maxInt_one {w : Nat} (hw : 9 ≤ w) : (addW (127 : BitVec w) 1).toInt = 128 := by
  have h127 : (127 : BitVec w).toInt = 127 := word_toInt_ofNat_small hw (by decide)
  have h1 : (1 : BitVec w).toInt = 1 := word_toInt_ofNat_small hw (by decide)
  rw [addW, h127, h1]
  exact word_toInt_small hw (by decide) (by decide)

/-- R7: from nine bits on, -128 - 1 does not wrap. -/
theorem subW_minInt_one {w : Nat} (hw : 9 ≤ w) : (subW (-128 : BitVec w) 1).toInt = -129 := by
  have h128 : (-128 : BitVec w).toInt = -128 := by
    have e : (-128 : BitVec w) = BitVec.ofInt w (-128) := by rw [BitVec.ofInt_neg]; rfl
    rw [e]
    exact word_toInt_small hw (by decide) (by decide)
  have h1 : (1 : BitVec w).toInt = 1 := word_toInt_ofNat_small hw (by decide)
  rw [subW, h128, h1]
  exact word_toInt_small hw (by decide) (by decide)

variable {W : Nat}

/-- R77: an ADD whose sum is above 127 writes it, and faults. -/
theorem execAt_add_overflow {a : Word W} {s : State W} (hv : valid a = true)
    (h : 127 < (addW s.acc (s.cellAt (cellIndex a)).opd).toInt) :
    execAt (.add a) s =
      .next (raiseFault .arithOverflow ((advancePc s).writeAcc (addW s.acc (s.cellAt (cellIndex a)).opd))) := by
  rw [addW_eq] at h ⊢
  rcases execAtAdd_cases a s with ⟨hv', _⟩ | ⟨_, _, rfl, ⟨_, e⟩ | ⟨hle, _⟩⟩
  · exact absurd (hv.symm.trans hv') (by decide)
  · exact e
  · omega

/-- R78: a SUB whose difference is at most 127 writes it, and goes on. -/
theorem execAt_sub_of_le {a : Word W} {s : State W} (hv : valid a = true)
    (h : (subW s.acc (s.cellAt (cellIndex a)).opd).toInt ≤ 127) :
    execAt (.sub a) s = .next ((advancePc s).writeAcc (subW s.acc (s.cellAt (cellIndex a)).opd)) := by
  rw [subW_eq] at h ⊢
  rcases execAtSub_cases a s with ⟨hv', _⟩ | ⟨_, _, rfl, ⟨hgt, _⟩ | ⟨_, e⟩⟩
  · exact absurd (hv.symm.trans hv') (by decide)
  · omega
  · exact e

/-- Settles O24: 128 and -129 fit in nine bits, so the flags see the exact results. -/
theorem nineBitsHoldTheOverflow : Obligations.NineBitsHoldTheOverflow := by
  intro w hw
  have hadd := addW_maxInt_one hw
  have hsub := subW_minInt_one hw
  have hV : flagsOf (addW (127 : BitVec w) 1) = 0b001 := flagsOf_of_gt (by omega)
  have hN : flagsOf (subW (-128 : BitVec w) 1) = 0b010 := flagsOf_of_neg (by omega)
  refine ⟨hadd, hV, hsub, hN, fun a s ha hopd => ⟨fun hacc => ?_, fun hacc => ?_⟩⟩
  · have h := execAt_add_overflow (s := s) ((valid_iff a).mpr ha) (by rw [hacc, hopd]; omega)
    rw [hacc, hopd] at h
    exact ⟨_, h, hadd, hV, rfl, rfl, rfl⟩
  · have h := execAt_sub_of_le (s := s) ((valid_iff a).mpr ha) (by rw [hacc, hopd]; omega)
    rw [hacc, hopd] at h
    exact ⟨_, h, hsub, hN, rfl, rfl, rfl⟩

end Sys2Proof.Machine
end

section
/-! The first step after START (spec/70_reset_and_hazards.md R115). -/

namespace Sys2Proof.Machine

variable {W : Nat}

/-- R115: the first step after a START runs cell 0. -/
theorem stepAt_start (rs : BitVec 3) (s : State W) :
    stepAt (s.start rs) = execAt (decodeCell (s.cellAt 0)) ((s.start rs).setIr (s.cellAt 0)) := by
  have hv : valid (0 : Word W) = true := by simp [valid]
  have hi : cellIndex (0 : Word W) = 0 := by simp [cellIndex]
  rcases stepAt_cases (s.start rs) with ⟨h, _⟩ | ⟨_, h, _⟩ | ⟨_, _, e⟩
  · exact absurd rfl h
  · exact absurd (hv.symm.trans h) (by decide)
  · rwa [State.start_pc, State.start_cellAt, hi] at e

/-- R76, R83, D19: a BEQ at cell 0 tests the `RESET_STATUS` that START has written. -/
theorem stepAt_start_beq {rs : BitVec 3} {s : State W} {target : Word W} (hes : s.es ≠ .running)
    (h0 : s.cellAt 0 = { op := 0b1000, opd := target }) :
    ∃ u, stepAt (hostOpWith rs .start s).1 = .next u ∧ u.pc = if rs.getLsbD 2 then target else 1 := by
  have hdec : decodeCell (s.cellAt 0) = .beq target := h0 ▸ decodeCell_encode (.beq target)
  rw [hostOpWith_start hes, stepAt_start, hdec]
  rcases execAtBeq_cases target ((s.start rs).setIr (s.cellAt 0)) with
    ⟨(hz : rs.getLsbD 2 = true), e⟩ | ⟨(hz : rs.getLsbD 2 = false), e⟩
  · exact ⟨_, e, by rw [if_pos hz, State.setPc_pc]⟩
  · exact ⟨_, e, by rw [if_neg (Bool.eq_false_iff.mp hz)]; simp [incW_eq]⟩

/-- Settles O57: one argument at every width; the default machine's step is that of its width. -/
theorem resetStatusDecidesFirstBranch : Obligations.ResetStatusDecidesFirstBranch :=
  ⟨fun _ _ _ hes h0 => stepAt_eq_step _ ▸ stepAt_start_beq hes h0, fun _ _ _ _ hes h0 => stepAt_start_beq hes h0⟩

end Sys2Proof.Machine
end

section
/-! STATUS after a START is legal, with no premise on the width (spec/10_state.md R21). -/

namespace Sys2Proof.Machine

variable {W : Nat}

/-- R20, R21: the four legal values of STATUS, written out. -/
theorem statusLegal_iff (st : BitVec 3) :
    statusLegal st = true ↔ st = 0b000 ∨ st = 0b001 ∨ st = 0b010 ∨ st = 0b100 := by
  simp [statusLegal, or_assoc]

/-- R21: a step leaves a legal STATUS legal. -/
theorem stepAt_status_legal {s t : State W} (h : stepAt s = .next t) (hs : statusLegal s.status = true) :
    statusLegal t.status = true := by
  obtain ⟨_, ⟨_, rfl⟩ | ⟨_, hx⟩⟩ := stepAt_next h
  · exact hs
  · exact hx.status_legal hs

/-- R21, R112: STATUS is legal in every reachable state but IDLE: START writes it, and nothing else leaves IDLE. -/
theorem Reachable.status_legal {cfg : Config} (hrs : statusLegal cfg.resetStatus = true)
    {s : State cfg.dataWidth} (h : Reachable cfg s) : s.es ≠ .idle → statusLegal s.status = true := by
  induction h with
  | powerOn hp => exact fun hne => absurd hp.1 hne
  | @host s o _ ih =>
    rw [hostOpAt]
    rcases hostOpWith_state_cases cfg.resetStatus o s with e | ⟨_, e⟩ | ⟨_, n, c, _, e⟩ <;> rw [e]
    · exact ih
    · exact fun _ => hrs
    · exact ih
  | step _ hs ih =>
    have hes := (stepAt_next hs).1
    exact fun _ => stepAt_status_legal hs (ih (by simp [hes]))

/-- Settles O20, by induction on how the state was reached. -/
theorem statusAlwaysLegal : Obligations.StatusAlwaysLegal :=
  ⟨fun _ s hrs h hne => (statusLegal_iff s.status).mp (h.status_legal ((statusLegal_iff _).mpr hrs) hne),
    fun _ v => (statusLegal_iff (flagsOf v)).mp (statusLegal_flagsOf v), .inl rfl⟩

end Sys2Proof.Machine
end

section
/-! Which registers an instruction writes, and how PC moves (spec/10_state.md R17 to R26). -/

namespace Sys2Proof.Machine

variable {W : Nat} {i : Instr W} {s t : State W}

/-- R17: LDA, LDA#, ADD and SUB alone write ACC. -/
theorem ExecNext.acc_writer (h : ExecNext i s t) :
    t.acc = s.acc ∨ i.opcode ∈ ([0b0001, 0b0011, 0b0100, 0b0110] : List (BitVec 4)) := by
  cases h with
  | lda | ldaImm | add | addOverflow | sub | subOverflow => exact .inr (by simp [Instr.opcode])
  | _ => exact .inl rfl

/-- R20: LDA, LDA#, ADD, SUB and CMP# alone write STATUS. -/
theorem ExecNext.status_writer (h : ExecNext i s t) :
    t.status = s.status ∨ i.opcode ∈ ([0b0001, 0b0011, 0b0100, 0b0110, 0b0111] : List (BitVec 4)) := by
  cases h with
  | lda | ldaImm | add | addOverflow | sub | subOverflow | cmpImm => exact .inr (by simp [Instr.opcode])
  | _ => exact .inl rfl

/-- R22: JSR and RTN alone write TOS. -/
theorem ExecNext.tos_writer (h : ExecNext i s t) :
    t.tos = s.tos ∨ i.opcode ∈ ([0b1010, 0b1011] : List (BitVec 4)) := by
  cases h with
  | jsr | rtn => exact .inr (by simp [Instr.opcode])
  | _ => exact .inl rfl

/-- R24: no instruction writes IR. -/
theorem ExecNext.ir_eq (h : ExecNext i s t) : t.ir = s.ir := by
  cases h <;> rfl

/-- R26: an instruction that changes ERR sets it, in a fault. -/
theorem ExecNext.err_writer (h : ExecNext i s t) (hne : t.err ≠ s.err) : t.err = 1 ∧ t.es = .haltedError := by
  rcases h.fault_or_goesOn with ⟨he, _, hes⟩ | ⟨he, _⟩
  · exact ⟨he, hes⟩
  · exact absurd he hne

/-- Settles O46, register by register. -/
theorem registerWriters : Obligations.RegisterWriters := by
  intro i s t h
  have hx := execNext_of_exec h
  exact ⟨hx.acc_writer.resolve_left, hx.status_writer.resolve_left, hx.tos_writer.resolve_left, hx.err_writer, hx.ir_eq⟩

/-- R63: HLT leaves PC. -/
theorem ExecNext.pc_of_hlt (h : ExecNext i s t) (hop : i.opcode = 0b1100) : t.pc = s.pc := by
  cases h with
  | hlt => rfl
  | _ => simp [Instr.opcode] at hop

/-- R64: every instruction but JMP, BEQ, JSR, RTN and HLT leaves PC advanced, in a fault too. -/
theorem ExecNext.pc_of_not_jump (h : ExecNext i s t)
    (hop : i.opcode ∉ ([0b0101, 0b1000, 0b1010, 0b1011, 0b1100] : List (BitVec 4))) : t.pc = incW s.pc := by
  cases h with
  | jmp | beqTaken | jsr | rtn | hlt => simp [Instr.opcode] at hop
  | _ => rfl

/-- Settles O47: a PC in 0..19 is advanced without a wrap. -/
theorem pcAdvance : Obligations.PcAdvance := by
  intro i s t hpc h
  obtain ⟨_, hpc⟩ := hpc
  have hx := execNext_of_exec h
  refine ⟨hx.pc_of_hlt, fun hop => ?_⟩
  rw [hx.pc_of_not_jump hop]
  exact incW_toInt_small (by decide) (by omega)

end Sys2Proof.Machine
end

section
/-! The fetched latch, the push onto the fetched cell, and the stack cell that is not there (spec/10_state.md R22, R24). -/

namespace Sys2Proof.Machine

variable {W : Nat}

/-- R62: a running engine with a valid PC runs the cell at PC, latched into IR. -/
theorem step_of_valid {s : State} (hes : s.es = .running) (hv : valid s.pc = true) :
    step s = exec (decodeCell (s.cellAt (cellIndex s.pc))) (s.setIr (s.cellAt (cellIndex s.pc))) := by
  rcases step_cases s with ⟨h, _⟩ | ⟨_, h, _⟩ | ⟨_, _, e⟩
  · exact absurd hes h
  · exact absurd (hv.symm.trans h) (by decide)
  · exact e

/-- R24: no host operation looks at IR, neither for its permission nor for its reply. -/
theorem hostOpWith_reply_setIr (rs : BitVec 3) (o : HostOp W) (s : State W) (c : MemCell W) :
    (hostOpWith rs o (s.setIr c)).2 = (hostOpWith rs o s).2 := by
  have hallowed : hostAllowed o (s.setIr c) = hostAllowed o s := by cases o <;> rfl
  have hreply : hostReply o (s.setIr c) = hostReply o s := by cases o <;> rfl
  simp only [hostOpWith, hallowed, hreply, apply_ite Prod.snd]

/-- Settles O12: the step writes the fetched cell over IR before it runs anything. -/
theorem oldIrIsNeverRead : Obligations.OldIrIsNeverRead := by
  refine ⟨fun s c hes hpc => ?_, hostOpWith_reply_setIr⟩
  have hv := (valid_iff s.pc).mpr hpc
  calc step (s.setIr c)
      = exec (decodeCell (s.cellAt (cellIndex s.pc))) (s.setIr (s.cellAt (cellIndex s.pc))) :=
        step_of_valid (s := s.setIr c) hes hv
    _ = step s := (step_of_valid hes hv).symm

/-- R84: a JSR with TOS in 1..20 pushes the advanced PC below TOS and goes to its target. -/
theorem exec_jsr_of_room {target : Word} {s : State} (h1 : 1 ≤ s.tos.toInt) (h20 : s.tos.toInt ≤ 20) :
    exec (.jsr target) s =
      .next ((((advancePc s).setTos (decW s.tos)).writeOpd (cellIndex (decW s.tos)) (incW s.pc)).setPc target) := by
  rw [← execAt_eq_exec]
  rcases execAtJsr_cases target s with ⟨h, _⟩ | ⟨_, _, e⟩ | ⟨h, _⟩
  · omega
  · exact e
  · omega

/-- Settles O14: TOS = PC + 1 puts the push on the JSR's own cell, after the target was fetched (K5). -/
theorem pushOnOwnCellKeepsTarget : Obligations.PushOnOwnCellKeepsTarget := by
  intro s target hm hes hpc hcell htos
  obtain ⟨h0, h19⟩ := hpc
  have hinc : s.tos = incW s.pc := by rw [htos, incW_eq]
  have htosInt : s.tos.toInt = s.pc.toInt + 1 := by rw [hinc, incW_toInt_small (by decide) (by omega)]
  have hdec : decW s.tos = s.pc := word_ext (by rw [decW_toInt (by omega)]; omega)
  have hrun := step_of_valid hes ((valid_iff s.pc).mpr ⟨h0, h19⟩)
  have hjsr : decodeCell (s.cellAt (cellIndex s.pc)) = .jsr target := hcell ▸ decodeCell_encode (.jsr target)
  rw [hjsr, exec_jsr_of_room (by rw [State.setIr_tos]; omega) (by rw [State.setIr_tos]; omega)] at hrun
  refine ⟨_, hrun, rfl, hdec, ?_⟩
  rw [State.setPc_cellAt, State.setIr_tos, State.setIr_pc, hdec, State.writeOpd_cellAt_same _ _ _ (by exact hm),
    State.setTos_cellAt, advancePc_cellAt, State.setIr_cellAt, hcell, incW_eq]

/-- Settles O37: the stack cell's address is not valid in either case. -/
theorem stackCellOutsideMemoryStops : Obligations.StackCellOutsideMemoryStops := by
  intro v s
  refine ⟨fun h => ?_, fun h => ?_⟩ <;> rw [← execAt_eq_exec]
  · rcases execAtJsr_cases v s with ⟨h', _⟩ | ⟨h', _⟩ | ⟨_, e⟩
    · omega
    · omega
    · exact e
  · rcases execAtRtn_cases v s with ⟨h', _⟩ | ⟨h', _⟩ | ⟨_, e⟩
    · omega
    · omega
    · exact e

end Sys2Proof.Machine
end

section
/-! The host operations one by one, and START's first step (spec/70_reset_and_hazards.md R113, R115, R117). -/

namespace Sys2Proof.Machine

variable {W : Nat} {rs : BitVec 3} {s : State W}

/-- R113: an operation that is not allowed has no effect and returns nothing. -/
theorem hostOpWith_of_not_allowed {o : HostOp W} (h : hostAllowed o s = false) : hostOpWith rs o s = (s, none) :=
  if_neg (by simp [h])

/-- R113: an allowed operation has its effect and its reply. -/
theorem hostOpWith_of_allowed {o : HostOp W} (h : hostAllowed o s = true) :
    hostOpWith rs o s = (hostEffect rs o s, hostReply o s) :=
  if_pos h

/-- R113: when LOAD_CELL is allowed. -/
theorem hostAllowed_loadCell_iff (a : Int) (op : BitVec 4) (opd : Word W) (s : State W) :
    hostAllowed (.loadCell a op opd) s = true ↔ s.es ≠ .running ∧ 0 ≤ a ∧ a ≤ 19 := by
  simp [hostAllowed]

/-- R113: READ_CELL is allowed when LOAD_CELL of the same address is. -/
theorem hostAllowed_readCell_eq (a : Int) (op : BitVec 4) (opd : Word W) (s : State W) :
    hostAllowed (.readCell a) s = hostAllowed (.loadCell a op opd) s := rfl

/-- R113: when START is allowed. -/
theorem hostAllowed_start_iff (s : State W) : hostAllowed .start s = true ↔ s.es ≠ .running := by
  simp [hostAllowed]

/-- R113: READ_REGS is allowed when START is. -/
theorem hostAllowed_readRegs_eq (s : State W) : hostAllowed .readRegs s = hostAllowed .start s := rfl

/-- R114: an allowed LOAD_CELL loads the cell, and returns nothing. -/
theorem hostOpWith_loadCell {n : Nat} (c : MemCell W) (hes : s.es ≠ .running) (hn : n < 20) :
    hostOpWith rs (.loadCell n c.op c.opd) s = (s.loadCell n c, none) :=
  hostOpWith_of_allowed ((hostAllowed_loadCell_iff _ _ _ _).mpr ⟨hes, by omega, by omega⟩)

/-- Settles O54, operation by operation: each is its effect and reply where allowed, and nothing elsewhere. -/
theorem hostOperations : Obligations.HostOperations := by
  intro rs s a op opd hm
  refine ⟨fun hes h0 h19 => ?_, fun hes => ?_, rfl, fun h => ?_, fun hes => ?_⟩
  · have hload := (hostAllowed_loadCell_iff a op opd s).mpr ⟨hes, h0, h19⟩
    have hread := (hostAllowed_readCell_eq a op opd s).trans hload
    rw [hostOpWith_of_allowed hload, hostOpWith_of_allowed hread]
    exact ⟨rfl, rfl, State.loadCell_cellAt_same s _ _ hm, fun n hn => State.loadCell_cellAt_ne s _ hn, rfl⟩
  · have hstart := (hostAllowed_start_iff s).mpr hes
    exact ⟨hostOpWith_of_allowed hstart, hostOpWith_of_allowed ((hostAllowed_readRegs_eq s).trans hstart)⟩
  · have hload : hostAllowed (.loadCell a op opd) s = false := by
      rw [Bool.eq_false_iff, ne_eq, hostAllowed_loadCell_iff]
      rintro ⟨hes, h0, h19⟩
      rcases h with h | h | h
      · exact hes h
      · omega
      · omega
    exact ⟨hostOpWith_of_not_allowed hload,
      hostOpWith_of_not_allowed ((hostAllowed_readCell_eq a op opd s).trans hload)⟩
  · have hstart : hostAllowed .start s = false := by
      rw [Bool.eq_false_iff, ne_eq, hostAllowed_start_iff, not_not]
      exact hes
    exact ⟨hostOpWith_of_not_allowed hstart, hostOpWith_of_not_allowed ((hostAllowed_readRegs_eq s).trans hstart)⟩

/-- Settles O55: the started state is `State.start`, and its first step runs cell 0. -/
theorem startThenFirstStep : Obligations.StartThenFirstStep := by
  intro rs s hes
  refine ⟨s.start rs, hostOpWith_start hes, rfl, ?_⟩
  rw [← stepAt_eq_step, stepAt_start, execAt_eq_exec]
  rfl

end Sys2Proof.Machine
end

section
/-! Loading an image cell by cell, and the boot order (spec/70_reset_and_hazards.md R114, R118, R119). -/

namespace Sys2Proof.Machine

variable {W : Nat}

/-- R114: loading an image loads its first cell, then the rest from the next address on. -/
theorem loadImageFrom_cons (rs : BitVec 3) {n : Nat} (c : MemCell W) (img : List (MemCell W)) {s : State W}
    (hes : s.es ≠ .running) (hn : n < 20) :
    loadImageFrom rs n (c :: img) s = loadImageFrom rs (n + 1) img (s.loadCell n c) := by
  rw [loadImageFrom, hostOpWith_loadCell c hes hn]

/-- R114: what loading an image that fits from cell n on leaves: the memory in canonical form, every register, and the cells
below n. -/
theorem loadImageFrom_frame (rs : BitVec 3) (img : List (MemCell W)) {n : Nat} {s : State W} (hm : s.mem.wf)
    (hes : s.es ≠ .running) (hfit : n + img.length ≤ 20) :
    (loadImageFrom rs n img s).mem.wf ∧ loadImageFrom rs n img s = s.setMem (loadImageFrom rs n img s).mem ∧
    ∀ k, k < n → (loadImageFrom rs n img s).cellAt k = s.cellAt k := by
  induction img generalizing n s with
  | nil => exact ⟨hm, rfl, fun _ _ => rfl⟩
  | cons c img ih =>
    rw [List.length_cons] at hfit
    have hn : n < 20 := by omega
    rw [loadImageFrom_cons rs c img hes hn]
    obtain ⟨hwf, hregs, hbelow⟩ := ih (State.loadCell_wf c hm hn) hes (by omega : n + 1 + img.length ≤ 20)
    refine ⟨hwf, hregs, fun k hk => ?_⟩
    rw [hbelow k (by omega), State.loadCell_cellAt_ne s c (by omega)]

/-- R114: after loading an image that fits from cell n on, cell n + k holds the image's cell k. -/
theorem loadImageFrom_cellAt (rs : BitVec 3) (img : List (MemCell W)) {n : Nat} {s : State W} (hm : s.mem.wf)
    (hes : s.es ≠ .running) (hfit : n + img.length ≤ 20) {k : Nat} (hk : k < img.length) :
    img[k]? = some ((loadImageFrom rs n img s).cellAt (n + k)) := by
  induction img generalizing n s k with
  | nil => exact absurd hk (Nat.not_lt_zero k)
  | cons c img ih =>
    rw [List.length_cons] at hfit hk
    have hn : n < 20 := by omega
    have hm' := State.loadCell_wf c hm hn
    have hfit' : n + 1 + img.length ≤ 20 := by omega
    rw [loadImageFrom_cons rs c img hes hn]
    cases k with
    | zero =>
      obtain ⟨_, _, hbelow⟩ := loadImageFrom_frame rs img hm' hes hfit'
      have hcell := (hbelow n (by omega)).trans (State.loadCell_cellAt_same s n c hm)
      exact congrArg some hcell.symm
    | succ k =>
      rw [List.getElem?_cons_succ, ih hm' hes hfit' (by omega), Nat.add_right_comm, Nat.add_assoc]

/-- R118: when the pre-flight check passes. -/
theorem preflightOk_iff (c : MemCell W) : preflightOk c = true ↔ c.op ≠ 0b1101 ∧ c.opd ≠ 0 := by
  simp [preflightOk]

/-- R119: a boot whose image is full and whose loaded cell 0 passes the check is the image load and a START. -/
theorem bootWith_of_ok {rs : BitVec 3} {img : List (MemCell W)} {s : State W} (hlen : img.length = 20)
    (hok : preflightOk ((loadImageFrom rs 0 img s).cellAt 0) = true)
    (hes : (loadImageFrom rs 0 img s).es ≠ .running) :
    bootWith rs img s = .next ((loadImageFrom rs 0 img s).start rs) := by
  have hfull : imageFull img = true := by simp [imageFull, hlen]
  rw [bootWith, if_pos hfull, if_pos hok, hostOpWith_start hes]

/-- Settles O58: the load fills the 20 cells and leaves the registers to START. -/
theorem bootLoadsImage : Obligations.BootLoadsImage := by
  intro img s hm hes hlen hpre
  have hfit : 0 + img.length ≤ 20 := by omega
  have hcell (n : Nat) (hn : n < 20) :
      img[n]? = some ((loadImageFrom Config.defaultResetStatus 0 img s).cellAt n) := by
    simpa using loadImageFrom_cellAt Config.defaultResetStatus img hm hes hfit (k := n) (by omega)
  obtain ⟨hwf, hregs, _⟩ := loadImageFrom_frame Config.defaultResetStatus img hm hes hfit
  have hok := (preflightOk_iff _).mpr (hpre _ (hcell 0 (by decide)))
  refine ⟨_, bootWith_of_ok hlen hok (by rw [hregs]; exact hes), hcell, hwf, ?_⟩
  rw [hregs]
  rfl

end Sys2Proof.Machine
end

section
/-! The canonical form of memory: it lists exactly the cells that do not read as unlisted, in order, so what a memory reads
as determines it (spec/20_memory.md R28; log 4, log 5). -/

namespace Sys2Proof.Machine

variable {W : Nat}

/-- The tail of a memory in canonical form is in canonical form. -/
theorem Memory.wf_of_cons {p : Nat × MemCell W} {m : Memory W} (h : Memory.wf (p :: m)) : Memory.wf m := by
  obtain ⟨hsorted, hentry⟩ := h
  exact ⟨hsorted.of_cons, fun q hq => hentry q (List.mem_cons_of_mem p hq)⟩

/-- The entries of a memory in canonical form are its cells that do not read as an unlisted one. -/
theorem Memory.mem_iff_cellAt {m : Memory W} (h : m.wf) (n : Nat) (c : MemCell W) :
    (n, c) ∈ m ↔ m.cellAt n = c ∧ c ≠ unlistedCell := by
  induction m with
  | nil => simpa [Memory.cellAt] using Eq.symm
  | cons p m ih =>
    obtain ⟨b, d⟩ := p
    have ih := ih (Memory.wf_of_cons h)
    obtain ⟨hsorted, hentry⟩ := h
    have hd : d ≠ unlistedCell := (hentry (b, d) List.mem_cons_self).2
    rw [List.mem_cons, Prod.mk.injEq, Memory.cellAt]
    by_cases hn : n = b
    · have habsent : (n, c) ∉ m := fun hmem => Nat.lt_irrefl b (hn ▸ List.rel_of_pairwise_cons hsorted hmem)
      rw [if_pos hn]
      constructor
      · intro hmem
        obtain ⟨_, rfl⟩ := hmem.resolve_right habsent
        exact ⟨rfl, hd⟩
      · rintro ⟨rfl, _⟩
        exact .inl ⟨hn, rfl⟩
    · rw [if_neg hn, ← ih]
      exact ⟨fun hmem => hmem.resolve_left fun ⟨hb, _⟩ => hn hb, .inr⟩

/-- Rising addresses do not repeat an entry. -/
theorem Memory.nodup_of_wf {m : Memory W} (h : m.wf) : m.Nodup :=
  h.1.imp fun hlt heq => Nat.ne_of_lt hlt (congrArg Prod.fst heq)

/-- Two memories in canonical form that read alike have the same entries, in the same rising order. -/
theorem Memory.eq_of_cellAt_eq {m k : Memory W} (hm : m.wf) (hk : k.wf) (h : ∀ n, m.cellAt n = k.cellAt n) : m = k := by
  have hmem (p : Nat × MemCell W) : p ∈ m ↔ p ∈ k := by
    rw [Memory.mem_iff_cellAt hm, Memory.mem_iff_cellAt hk, h]
  have hperm : m.Perm k := (List.perm_ext_iff_of_nodup (Memory.nodup_of_wf hm) (Memory.nodup_of_wf hk)).mpr hmem
  exact hperm.eq_of_pairwise (fun _ _ _ _ hlt hgt => absurd hgt (Nat.lt_asymm hlt)) hm.1 hk.1

/-- Settles O50: the reads determine the entries, and the rising order determines the list. -/
theorem equalReadsEqualMemories : Obligations.EqualReadsEqualMemories :=
  fun _ _ => Memory.eq_of_cellAt_eq

end Sys2Proof.Machine
end

section
/-! What instructions and steps do to memory (spec/20_memory.md R31, R32, R42; spec/41_load_store.md R72). -/

namespace Sys2Proof.Machine

variable {W : Nat} {i : Instr W} {s t : State W}

/-- A cell is what memory reads as at its number. -/
theorem State.cellAt_eq_of_mem_eq (h : t.mem = s.mem) (n : Nat) : t.cellAt n = s.cellAt n :=
  congrArg (Memory.cellAt · n) h

/-- R31, R32: an instruction leaves memory, or it is an STA or a JSR and writes the operand of the one cell it names. -/
theorem ExecNext.mem_writer (h : ExecNext i s t) :
    t.mem = s.mem ∨ ∃ n v, t.mem = (s.writeOpd n v).mem ∧
      ((i.opcode = 0b0010 ∧ n = cellIndex i.operand) ∨ (i.opcode = 0b1010 ∧ n = cellIndex (decW s.tos))) := by
  cases h with
  | sta a s hv => exact .inr ⟨cellIndex a, s.acc, rfl, .inl ⟨rfl, rfl⟩⟩
  | jsr v s h1 h20 hv => exact .inr ⟨cellIndex (decW s.tos), incW s.pc, rfl, .inr ⟨rfl, rfl⟩⟩
  | _ => exact .inl rfl

/-- R32: an instruction leaves the opcode of every cell. -/
theorem ExecNext.cellAt_op (h : ExecNext i s t) (hm : s.mem.wf) (n : Nat) : (t.cellAt n).op = (s.cellAt n).op := by
  rcases h.mem_writer with e | ⟨k, v, e, _⟩ <;> rw [State.cellAt_eq_of_mem_eq e]
  exact Memory.op_write_opd s.mem k n v hm

/-- R32: a step leaves the opcode of every cell, at every width. -/
theorem stepAt_cellAt_op (h : stepAt s = .next t) (hm : s.mem.wf) (n : Nat) : (t.cellAt n).op = (s.cellAt n).op := by
  obtain ⟨_, ⟨_, rfl⟩ | ⟨_, hx⟩⟩ := stepAt_next h
  · rfl
  · exact hx.cellAt_op hm n

/-- Settles O48: STA and JSR alone write memory, and both write back the opcode they find. -/
theorem stepsNeverWriteOpcodes : Obligations.StepsNeverWriteOpcodes :=
  fun s _ hm h => stepAt_cellAt_op ((stepAt_eq_step s).trans h) hm

/-- Settles O49: a changed cell is the one that the instruction's store names. -/
theorem memoryWriters : Obligations.MemoryWriters := by
  intro i s t n h hne
  rcases (execNext_of_exec h).mem_writer with e | ⟨k, v, e, hwriter⟩
  · exact absurd (State.cellAt_eq_of_mem_eq e n) hne
  · have hnk : n = k := by
      by_contra hnk
      exact hne ((State.cellAt_eq_of_mem_eq e n).trans (State.writeOpd_cellAt_ne s v hnk))
    exact hnk ▸ hwriter

/-- Settles O43: a store, or the fault of an invalid address. -/
theorem storeFrame : Obligations.StoreFrame := by
  intro a s t h
  cases execNext_of_exec h with
  | sta _ _ hv =>
    exact ⟨rfl, rfl, rfl, rfl, .inl ⟨rfl, rfl, rfl⟩, fun n hn => State.writeOpd_cellAt_ne (advancePc s) s.acc hn⟩
  | staFault _ _ hv => exact ⟨rfl, rfl, rfl, rfl, .inr ⟨⟨rfl, rfl, rfl⟩, rfl⟩, fun _ _ => rfl⟩

/-- R72: an STA to a valid address stores ACC there. -/
theorem exec_sta_of_valid {a : Word} {s : State} (hv : valid a = true) :
    exec (.sta a) s = .next ((advancePc s).writeOpd (cellIndex a) s.acc) := by
  rw [← execAt_eq_exec]
  rcases execAtSta_cases a s with ⟨_, e⟩ | ⟨hv', _⟩
  · exact e
  · exact absurd (hv.symm.trans hv') (by decide)

/-- Settles O13: the second step fetches the cell that the first one wrote. -/
theorem storeSeenByNextFetch : Obligations.StoreSeenByNextFetch := by
  intro s t a hm hes hpc ha hcell hstep htpc
  have hva := (valid_iff a).mpr ha
  have hsta : decodeCell (s.cellAt (cellIndex s.pc)) = .sta a := hcell ▸ decodeCell_encode (.sta a)
  rw [step_of_valid hes ((valid_iff s.pc).mpr hpc), hsta, exec_sta_of_valid hva] at hstep
  injection hstep with ht
  have hes' : t.es = .running := ht ▸ hes
  have hstored : t.cellAt (cellIndex a) = { op := (s.cellAt (cellIndex a)).op, opd := s.acc } :=
    ht ▸ State.writeOpd_cellAt_same (advancePc (s.setIr _)) _ s.acc hm
  have hfetch := step_of_valid hes' (htpc ▸ hva)
  rw [htpc, hstored] at hfetch
  exact hfetch

end Sys2Proof.Machine
end

section
/-! Encoding undoes decoding, the bit layout of a cell, and the words of the spec (spec/30_encoding.md R45, R46, R49). -/

namespace Sys2Proof

variable {W : Nat}

/-- R46, R49: row n of the table is an instruction of opcode n, and it carries the operand whole. -/
@[simp] theorem encode_decodeCell (c : MemCell W) : encode (decodeCell c) = c := by
  obtain ⟨⟨op⟩, opd⟩ := c
  fin_cases op <;> rfl

/-- R49: the opcode of a decoded instruction is the `op` field of its cell. -/
@[simp] theorem decodeCell_opcode (c : MemCell W) : (decodeCell c).opcode = c.op :=
  congrArg (·.op) (encode_decodeCell c)

/-- R48: the operand of a decoded instruction is the whole `opd` field of its cell. -/
@[simp] theorem decodeCell_operand (c : MemCell W) : (decodeCell c).operand = c.opd :=
  congrArg (·.opd) (encode_decodeCell c)

/-- R49: no instruction is ill formed. -/
@[simp] theorem Instr.wellFormed_eq_true (i : Instr W) : i.wellFormed = true := by
  cases i <;> rfl

/-- R45: a number of W + 4 bits is put together again from its two fields. -/
theorem cellBits_cellOfBits {w : Nat} (h : w < 2 ^ Config.cellWidthAt W) :
    cellBits (cellOfBits w : MemCell W) = w := by
  have hop : w / 2 ^ W < 2 ^ 4 := Nat.div_lt_of_lt_mul (by rwa [← pow_add, Nat.add_comm])
  calc (BitVec.ofNat 4 (w / 2 ^ W)).toNat * 2 ^ W + (BitVec.ofNat W w).toNat
      = w / 2 ^ W * 2 ^ W + w % 2 ^ W := by rw [BitVec.toNat_ofNat, BitVec.toNat_ofNat, Nat.mod_eq_of_lt hop]
    _ = w := Nat.div_add_mod' w (2 ^ W)

/-- A number that is the bits of one cell decodes to that cell's instruction. -/
theorem decodeBits_of_lt {w : Nat} (h : w < 2 ^ Config.cellWidthAt W) :
    decodeBits (W := W) w = .ok (decodeCell (cellOfBits w)) := if_pos h

/-- A number decodes to an instruction exactly when it is that instruction's encoding. -/
theorem decodeBits_eq_ok_iff {w : Nat} {i : Instr W} : decodeBits w = .ok i ↔ encodeBits i = w := by
  constructor
  · intro h
    by_cases hw : w < 2 ^ Config.cellWidthAt W
    · rw [decodeBits_of_lt hw] at h
      injection h with hi
      rw [← hi, encodeBits, encode_decodeCell, cellBits_cellOfBits hw]
    · rw [decodeBits, if_neg hw] at h
      cases h
  · rintro rfl
    exact decodeBits_encodeBits i

/-- The same of the default machine's decoder, whatever number of bits it is told. -/
theorem decodeTableWord_eq_some_iff {n w : Nat} {i : Instr} : decodeTableWord n w = some i ↔ encodeBits i = w := by
  rw [← decodeBits_eq_ok_iff, decodeTableWord]
  cases decodeBits (W := Config.defaultWidth) w <;> simp

/-- Settles O2: decoding and encoding are inverse, so the encodings of w are what the decoder answers, and it answers once. -/
theorem encodeOfDecode : Obligations.EncodeOfDecode := by
  intro w hw
  have hdec : decodeTableWord Config.cellWidth w = some (decodeCell (cellOfBits w)) := by
    rw [decodeTableWord, decodeBits_of_lt hw]
  refine ⟨_, hdec, decodeTableWord_eq_some_iff.mp hdec, fun j hj => ?_⟩
  exact Option.some.inj ((decodeTableWord_eq_some_iff.mpr hj).symm.trans hdec)

/-- Settles O3: the opcode and the operand of a decoded instruction are the two fields of its cell. -/
theorem opAloneSelectsInstruction : Obligations.OpAloneSelectsInstruction := by
  intro W c d
  have hiff : (decodeCell c).opcode = (decodeCell d).opcode ↔ c.op = d.op := by
    rw [decodeCell_opcode, decodeCell_opcode]
  exact ⟨decodeCell_opcode c, hiff, decodeCell_operand c, Instr.wellFormed_eq_true _⟩

/-- Settles O4: the operand is below 2^W, so adding it to the shifted opcode sets the low bits. -/
theorem cellLayout : Obligations.CellLayout := by
  intro W c
  refine ⟨?_, cellOfBits_cellBits c⟩
  rw [cellBits, BitVec.toNat_append, ← Nat.shiftLeft_add_eq_or_of_lt c.opd.isLt, Nat.shiftLeft_eq]

/-- Settles O5: sixteen closed facts, evaluated. -/
theorem specWordsDecode : Obligations.SpecWordsDecode := by
  unfold Obligations.SpecWordsDecode
  decide

end Sys2Proof
end

section
/-! The operand that an opcode does not use (spec/30_encoding.md R47). -/

namespace Sys2Proof.Machine

variable {W : Nat}

/-- R47: an instruction whose operand is ignored or not executed does the same under every operand. -/
theorem execAt_of_unused_operand {i : Instr W} (h : operandUse i = .ignored ∨ operandUse i = .notExecuted)
    (v : Word W) (s : State W) : execAt (decodeCell { op := i.opcode, opd := v }) s = execAt i s := by
  cases i with
  | noneOp | skp | rtn | hlt | err | reserved14 | reserved15 => rfl
  | _ => simp [operandUse] at h

/-- Settles O6: the other instruction is the first one's row of R46 with its own operand. -/
theorem unusedOperandMakesNoDifference : Obligations.UnusedOperandMakesNoDifference := by
  intro i j s hunused hop
  have hj : decodeCell { op := i.opcode, opd := j.operand } = j := hop ▸ decodeCell_encode j
  calc exec i s = execAt i s := (execAt_eq_exec i s).symm
    _ = execAt (decodeCell { op := i.opcode, opd := j.operand }) s := (execAt_of_unused_operand hunused _ s).symm
    _ = exec j s := by rw [hj, execAt_eq_exec]

end Sys2Proof.Machine
end

section
/-! The execution cycle: what a step does in each engine state, and what follows from it over more than one step
(spec/40_execution_cycle.md R57 to R68). -/

namespace Sys2Proof.Machine

variable {W : Nat}

/-! ### One step, by engine state and PC -/

/-- R61: a running engine with an invalid PC raises FETCH_ADDRESS. -/
theorem step_of_invalid {s : State} (hes : s.es = .running) (hv : valid s.pc = false) :
    step s = .next (raiseFault .fetchAddress s) := by
  rcases step_cases s with ⟨h, _⟩ | ⟨_, _, e⟩ | ⟨_, h, _⟩
  · exact absurd hes h
  · exact e
  · exact absurd (hv.symm.trans h) (by decide)

/-- R58: a step whose fetch phase finds the engine stopped is no step. -/
theorem step_of_noStep {s : State} {f : Fault} (h : fetch s = .noStep f) : step s = .fault f := by
  rw [step, stepWith, h]

/-- R60: a step whose fetch phase latches a cell runs the decoded cell. -/
theorem step_of_fetched {s t : State} {c : MemCell} (h : fetch s = .fetched c t) : step s = exec (decodeCell c) t := by
  rw [step, stepWith, h]

/-- Settles O7: R62's case of the step. -/
theorem stepRunsFetchedInstruction : Obligations.StepRunsFetchedInstruction :=
  fun s hes hpc => step_of_valid hes ((valid_iff s.pc).mpr hpc)

/-- Settles O8: R61's case of the step. -/
theorem fetchOutsideMemoryFaults : Obligations.FetchOutsideMemoryFaults :=
  fun s hes hpc => step_of_invalid hes ((valid_false_iff s.pc).mpr hpc)

/-- Settles O9: the fetch phase tests ES before anything else. -/
theorem noStepUnlessRunning : Obligations.NoStepUnlessRunning := by
  intro s
  refine ⟨fun hes => step_of_noStep ?_, fun hes => step_of_noStep ?_, fun hes => step_of_noStep ?_⟩ <;>
    rw [fetch, hes]

/-! ### The transitions between engine states -/

/-- R57, R63: of the instructions a running engine runs, HLT alone ends in HALTED_NORMAL. -/
theorem ExecNext.haltedNormal_iff {i : Instr W} {s t : State W} (h : ExecNext i s t) (hes : s.es = .running) :
    t.es = .haltedNormal ↔ i.opcode = 0b1100 := by
  cases h with
  | hlt => exact iff_of_true rfl rfl
  | ldaFault | staFault | addFault | subFault | addOverflow | subOverflow | jsrFault | rtnFault | err | reserved14
  | reserved15 => exact iff_of_false (by simp) (by simp [Instr.opcode])
  | _ => exact iff_of_false (by simp [hes]) (by simp [Instr.opcode])

/-- R57: no instruction that a running engine runs leads to IDLE. -/
theorem ExecNext.es_ne_idle {i : Instr W} {s t : State W} (h : ExecNext i s t) (hes : s.es = .running) :
    t.es ≠ .idle := by
  rcases h.fault_or_goesOn with ⟨_, _, e⟩ | ⟨_, _, e | e⟩ <;> simp [e, hes]

/-- R57: no step leads to IDLE. -/
theorem stepAt_es_ne_idle {s t : State W} (h : stepAt s = .next t) : t.es ≠ .idle := by
  obtain ⟨hes, ⟨_, rfl⟩ | ⟨_, hx⟩⟩ := stepAt_next h
  · simp
  · exact hx.es_ne_idle hes

/-- R57, R63: a step halts normally exactly when it fetches HLT from a valid PC. -/
theorem stepAt_haltedNormal_iff {s t : State W} (h : stepAt s = .next t) :
    t.es = .haltedNormal ↔ valid s.pc = true ∧ (s.cellAt (cellIndex s.pc)).op = 0b1100 := by
  obtain ⟨hes, ⟨hv, rfl⟩ | ⟨hv, hx⟩⟩ := stepAt_next h
  · simp [hv]
  · rw [hx.haltedNormal_iff hes, decodeCell_opcode, and_iff_right hv]

/-- Settles O10: HALTED_NORMAL by the fetched opcode, HALTED_ERROR by the invariant that the step keeps. -/
theorem engineStateTransitions : Obligations.EngineStateTransitions := by
  refine ⟨fun s t hi h => ?_, fun rs s hes => by rw [hostOpWith_start hes, State.start_es]⟩
  rw [← stepAt_eq_step] at h
  have hidle := stepAt_es_ne_idle h
  have hnormal := stepAt_haltedNormal_iff h
  rw [valid_iff] at hnormal
  obtain ⟨_, hregs⟩ := stepAt_inv (by decide) hi h
  obtain ⟨_, _, _, hcause⟩ := hregs hidle
  exact ⟨(stepAt_next h).1, hidle, hnormal, hcause.symm⟩

/-! ### Jumps out of memory and jumps to themselves -/

/-- R82, R83, R84: a JMP, a BEQ with Z set, and a JSR with room on the stack reach the target, whatever it is, in the same
engine state. -/
theorem ExecNext.es_pc_of_jump {i : Instr W} {s t : State W} {target : Word W} (h : ExecNext i s t)
    (hi : i = .jmp target ∨ (i = .beq target ∧ s.status = 0b100) ∨ (i = .jsr target ∧ 0 < s.tos.toInt)) :
    t.es = s.es ∧ t.pc = target := by
  rcases hi with rfl | ⟨rfl, hstatus⟩ | ⟨rfl, htos⟩
  · cases h
    exact ⟨rfl, rfl⟩
  · have hz : zeroFlag s.status = true := by rw [hstatus]; decide
    cases h with
    | beqTaken => exact ⟨rfl, rfl⟩
    | beqPassed _ _ hz' => exact absurd (hz.symm.trans hz') (by decide)
  · cases h with
    | jsr => exact ⟨rfl, rfl⟩
    | jsrFault _ _ hfull => omega

/-- Settles O15: the jump writes the target unchecked, and the next fetch checks it (R61). -/
theorem badTargetFaultsAtNextFetch : Obligations.BadTargetFaultsAtNextFetch := by
  intro s t i target _ hes hbad hi h
  obtain ⟨htes, htpc⟩ := (execNext_of_exec h).es_pc_of_jump hi
  have hrun := htes.trans hes
  exact ⟨hrun, htpc, step_of_invalid hrun ((valid_false_iff t.pc).mpr (htpc ▸ hbad))⟩

/-- R68: a running engine at a JMP to its own address. -/
structure JumpsToItself (s : State) : Prop where
  running : s.es = .running
  pcValid : valid s.pc = true
  cell : s.cellAt (cellIndex s.pc) = encode (.jmp s.pc)

/-- R82: the step of a JMP to itself does no more than latch it. -/
theorem JumpsToItself.step_eq {s : State} (h : JumpsToItself s) : step s = .next (s.setIr (encode (.jmp s.pc))) := by
  rw [step_of_valid h.running h.pcValid, h.cell, decodeCell_encode]
  rfl

/-- The latch is no part of what makes an engine jump to itself. -/
theorem JumpsToItself.setIr {s : State} (h : JumpsToItself s) (c : MemCell) : JumpsToItself (s.setIr c) :=
  ⟨h.running, h.pcValid, h.cell⟩

/-- R116: a running engine has not ended its run. -/
theorem not_halted_of_running {s : State W} (h : s.es = .running) : ¬ s.halted := by
  simp [State.halted, h]

/-- R68: looking for the end of a run past a step that the running engine takes. -/
theorem runToHalt_succ {k : Nat} {s t : State} (hes : s.es = .running) (h : step s = .next t) :
    runToHalt (k + 1) s = runToHalt k t := by
  simp only [runToHalt, runToHaltWith, if_neg (not_halted_of_running hes), h]

/-- R68: no fuel finds the end of the run of a JMP to itself. -/
theorem JumpsToItself.runToHalt_eq_none (n : Nat) {s : State} (h : JumpsToItself s) : runToHalt n s = none := by
  induction n generalizing s with
  | zero => exact if_neg (not_halted_of_running h.running)
  | succ n ih => rw [runToHalt_succ h.running h.step_eq, ih (h.setIr _)]

/-- R68: any number of steps of a JMP to itself changes the latch at most. -/
theorem JumpsToItself.run_eq (n : Nat) {s : State} (h : JumpsToItself s) :
    ∃ c, Host.Core.run Sys2Proof.core n s = .next (s.setIr c) := by
  induction n generalizing s with
  | zero => exact ⟨s.ir, rfl⟩
  | succ n ih =>
    obtain ⟨c, hrun⟩ := ih (h.setIr (encode (.jmp s.pc)))
    exact ⟨c, (core_run_succ h.step_eq).trans hrun⟩

/-- Settles O16, by induction on the fuel and on the number of steps. -/
theorem jumpToItselfNeverEnds : Obligations.JumpToItselfNeverEnds := by
  intro s n hes hpc hcell
  have hjump : JumpsToItself s := ⟨hes, (valid_iff s.pc).mpr hpc, hcell⟩
  obtain ⟨c, hrun⟩ := hjump.run_eq n
  exact ⟨hjump.runToHalt_eq_none n, s.setIr c, hrun, hes, rfl, rfl⟩

/-! ### A placed instruction -/

/-- R45: the word that the decoder reads as an instruction is put in a cell as that instruction's encoding. -/
theorem withFetchWord_eq_placeAtFetch {s : State} {n w : Nat} {i : Instr} (h : decodeTableWord n w = some i) :
    s.withFetchWord n w = placeAtFetch s (encode i) := by
  rw [State.withFetchWord, ← decodeTableWord_eq_some_iff.mp h, encodeBits, cellOfBits_cellBits]

/-- R60: the step after placing an instruction runs it. -/
theorem step_placeAtFetch {s : State} (i : Instr) (hm : s.mem.wf) :
    step (placeAtFetch s (encode i)) = exec i ((placeAtFetch s (encode i)).setIr (encode i)) := by
  rw [step_of_fetched (fetch_placeAtFetch s (encode i) hm), decodeCell_encode]

/-- R114: in a running engine with a valid PC, placing a cell is loading it at PC. -/
theorem placeAtFetch_eq_loadCell {s : State W} (c : MemCell W) (hes : s.es = .running) (hv : valid s.pc = true) :
    placeAtFetch s c = s.loadCell (cellIndex s.pc) c := by
  rw [placeAtFetch, readyToFetch_self hes hv]

/-- Settles O60: the fetch reads the placed cell back, and placing is one load. -/
theorem placedInstructionRunsNext : Obligations.PlacedInstructionRunsNext := by
  intro s nbits w i hm hdec
  rw [withFetchWord_eq_placeAtFetch hdec]
  refine ⟨step_placeAtFetch i hm, fun hes hpc => ?_⟩
  rw [placeAtFetch_eq_loadCell _ hes ((valid_iff s.pc).mpr hpc)]
  exact ⟨rfl, fun n hn => State.loadCell_cellAt_ne s _ hn⟩

end Sys2Proof.Machine
end

section
/-! Loads and stores: the new state of LDA, STA and LDA#, and the frame of the instructions that write ACC
(spec/41_load_store.md R71 to R73; spec/42_alu.md R77, R78). -/

namespace Sys2Proof.Machine

open Sys2Proof.Certificates.Slice0

variable {W : Nat}

/-- R64: the PC advance, as a sum. -/
theorem advancePc_eq (s : State W) : advancePc s = { s with pc := s.pc + 1 } := by
  rw [advancePc, State.setPc, incW_eq]

/-- R74: writing ACC past the PC advance writes the value's flags too, and nothing else. -/
theorem writeAcc_advancePc (s : State W) (v : Word W) :
    (advancePc s).writeAcc v = { s with pc := s.pc + 1, acc := v, status := flagsOf v } := by
  rw [advancePc_eq]
  rfl

/-- R96: a fault raised past the PC advance. -/
theorem raiseFault_advancePc (c : Cause) (s : State W) : raiseFault c (advancePc s) = faultedPast c s := by
  rw [advancePc_eq]
  rfl

/-- R71: an LDA of a valid address loads the cell's operand. -/
theorem exec_lda_of_valid {a : Word} {s : State} (hv : valid a = true) :
    exec (.lda a) s = .next ((advancePc s).writeAcc (s.cellAt (cellIndex a)).opd) :=
  withData_valid hv

/-- R71: an LDA of an invalid address raises DATA_ADDRESS. -/
theorem exec_lda_of_invalid {a : Word} {s : State} (hv : valid a = false) :
    exec (.lda a) s = .next (raiseFault .dataAddress (advancePc s)) :=
  withData_invalid hv

/-- R72: an STA to an invalid address raises DATA_ADDRESS. -/
theorem exec_sta_of_invalid {a : Word} {s : State} (hv : valid a = false) :
    exec (.sta a) s = .next (raiseFault .dataAddress (advancePc s)) :=
  storeData_invalid hv

/-- Settles O27: the address check decides between the load and the fault. -/
theorem ldaResult : Obligations.LdaResult := by
  intro a s
  refine ⟨rfl, fun ha => ?_, fun ha => ?_⟩
  · rw [exec_lda_of_valid ((valid_iff a).mpr ha), writeAcc_advancePc]
  · rw [exec_lda_of_invalid ((valid_false_iff a).mpr ha), raiseFault_advancePc]

/-- Settles O28: the store writes back the opcode it finds, and the fault comes before it. -/
theorem staResult : Obligations.StaResult := by
  intro a s hm
  refine ⟨rfl, fun ha => ?_, fun ha => ?_⟩
  · refine ⟨_, exec_sta_of_valid ((valid_iff a).mpr ha), State.writeOpd_cellAt_same (advancePc s) _ s.acc hm,
      fun n hn => State.writeOpd_cellAt_ne (advancePc s) s.acc hn, ?_⟩
    rw [advancePc_eq]
    rfl
  · rw [exec_sta_of_invalid ((valid_false_iff a).mpr ha), raiseFault_advancePc]

/-- Settles O29: ACC is written past the PC advance, with no fault after it. -/
theorem ldaImmResult : Obligations.LdaImmResult := by
  intro v s
  refine ⟨rfl, ?_⟩
  rw [← execAt_eq_exec, execAt_ldaImm, writeAcc_advancePc]

/-- Settles O41: ACC is written, DATA_ADDRESS is raised before that, or ARITH_OVERFLOW after it. -/
theorem accumulatorInstructionFrame : Obligations.AccumulatorInstructionFrame := by
  intro i v s t hi h
  cases execNext_of_exec h with
  | lda | ldaImm | add | sub => exact ⟨rfl, rfl, fun _ => rfl, .inl ⟨rfl, rfl, rfl⟩⟩
  | ldaFault | addFault | subFault => exact ⟨rfl, rfl, fun _ => rfl, .inr (.inl ⟨⟨rfl, rfl, rfl⟩, rfl, rfl⟩)⟩
  | addOverflow | subOverflow => exact ⟨rfl, rfl, fun _ => rfl, .inr (.inr ⟨rfl, rfl, rfl⟩)⟩
  | _ => simp at hi

end Sys2Proof.Machine
end

section
/-! The flags, ADD, SUB and CMP#, and the BEQ after a CMP# (spec/42_alu.md R74 to R81; spec/43_control_transfer.md R83). -/

namespace Sys2Proof.Machine

open Sys2Proof.Certificates.Slice0

variable {W : Nat}

/-- R74: Z is written for the value 0. -/
theorem flagsOf_of_zero {w : Nat} {v : BitVec w} (h : v.toInt = 0) : flagsOf v = 0b100 := if_pos h

/-- R74: no flag is set from 1 to 127. -/
theorem flagsOf_of_small_pos {w : Nat} {v : BitVec w} (h1 : 1 ≤ v.toInt) (h127 : v.toInt ≤ 127) : flagsOf v = 0b000 := by
  rcases flagsOf_cases v with ⟨h', _⟩ | ⟨h', _⟩ | ⟨h', _⟩ | ⟨_, e⟩
  · omega
  · omega
  · omega
  · exact e

/-- R75: V is written above 127 only. -/
theorem flagsOf_eq_overflow_iff {w : Nat} (v : BitVec w) : flagsOf v = 0b001 ↔ 127 < v.toInt := by
  refine ⟨fun hV => ?_, flagsOf_of_gt⟩
  rcases flagsOf_cases v with ⟨_, e⟩ | ⟨_, e⟩ | ⟨h, _⟩ | ⟨_, e⟩
  · exact absurd (e.symm.trans hV) (by decide)
  · exact absurd (e.symm.trans hV) (by decide)
  · exact h
  · exact absurd (e.symm.trans hV) (by decide)

/-- Settles O22, one range of R75's table at a time. -/
theorem flagPriority : Obligations.FlagPriority :=
  fun _ v => ⟨flagsOf_of_zero, flagsOf_of_neg, fun h => flagsOf_of_small_pos h.1 h.2,
    fun h => flagsOf_of_gt (by omega), flagsOf_eq_overflow_iff v⟩

/-- R79, R74: CMP# advances PC and writes the flags of the difference. -/
theorem exec_cmpImm (lit : Word) (s : State) :
    exec (.cmpImm lit) s = .next { s with pc := s.pc + 1, status := flagsOf (s.acc - lit) } := by
  rw [← execAt_eq_exec, execAt_cmpImm, advancePc_eq]
  rfl

/-- Settles O32: CMP# has no fault. -/
theorem cmpImmResult : Obligations.CmpImmResult :=
  fun lit s => ⟨rfl, exec_cmpImm lit s⟩

/-- R76: the flag that BEQ tests tells whether the value was 0. -/
theorem zeroFlag_flagsOf_iff {w : Nat} (v : BitVec w) : zeroFlag (flagsOf v) = true ↔ v = 0 := by
  have hzero : v = 0 ↔ v.toInt = 0 := ⟨fun h => by simp [h], fun h => word_ext (by simp [h])⟩
  rw [hzero]
  rcases flagsOf_cases v with ⟨h, e⟩ | ⟨h, e⟩ | ⟨h, e⟩ | ⟨h, e⟩ <;> rw [e]
  · exact iff_of_true rfl h
  · exact iff_of_false (by decide) (by omega)
  · exact iff_of_false (by decide) (by omega)
  · exact iff_of_false (by decide) (by omega)

/-- R83: BEQ writes PC alone, its target if Z is set. -/
theorem exec_beq (target : Word) (s : State) :
    exec (.beq target) s = .next { s with pc := if zeroFlag s.status then target else s.pc + 1 } := by
  rw [← execAt_eq_exec]
  rcases execAtBeq_cases target s with ⟨hz, e⟩ | ⟨hz, e⟩ <;> rw [e, advancePc_eq, hz] <;> rfl

/-- Settles O26: the difference is 0 exactly when ACC is the literal. -/
theorem compareThenBranch : Obligations.CompareThenBranch := by
  intro s lit target
  refine ⟨_, exec_cmpImm lit s, ?_⟩
  rw [exec_beq]
  simp only [zeroFlag_flagsOf_iff, sub_eq_zero]

/-- R77: an ADD of a valid address ends with the sum. -/
theorem exec_add_of_valid {a : Word} {s : State} (hv : valid a = true) :
    exec (.add a) s = finishArith (s.acc + (s.cellAt (cellIndex a)).opd) (advancePc s) := by
  rw [← addW_eq]
  exact withData_valid hv

/-- R78: a SUB of a valid address ends with the difference. -/
theorem exec_sub_of_valid {a : Word} {s : State} (hv : valid a = true) :
    exec (.sub a) s = finishArith (s.acc - (s.cellAt (cellIndex a)).opd) (advancePc s) := by
  rw [← subW_eq]
  exact withData_valid hv

/-- R77: an ADD of an invalid address raises DATA_ADDRESS. -/
theorem exec_add_of_invalid {a : Word} {s : State} (hv : valid a = false) :
    exec (.add a) s = .next (faultedPast .dataAddress s) :=
  (withData_invalid hv).trans (congrArg _ (raiseFault_advancePc _ s))

/-- R78: a SUB of an invalid address raises DATA_ADDRESS. -/
theorem exec_sub_of_invalid {a : Word} {s : State} (hv : valid a = false) :
    exec (.sub a) s = .next (faultedPast .dataAddress s) :=
  (withData_invalid hv).trans (congrArg _ (raiseFault_advancePc _ s))

/-- R77, R78: a result of at most 127 is written with its flags. -/
theorem finishArith_advancePc_of_le {v : Word W} (s : State W) (h : v.toInt ≤ 127) :
    finishArith v (advancePc s) = .next { s with pc := s.pc + 1, acc := v, status := flagsOf v } := by
  rcases finishArith_cases v (advancePc s) with ⟨hgt, _⟩ | ⟨_, e⟩
  · omega
  · rw [e, writeAcc_advancePc]

/-- R77, R78, R98: a result above 127 is written too, with V, and ARITH_OVERFLOW comes after it. -/
theorem finishArith_advancePc_of_gt {v : Word W} (s : State W) (h : 127 < v.toInt) :
    finishArith v (advancePc s) = .next { faultedPast .arithOverflow s with acc := v, status := 0b001 } := by
  rcases finishArith_cases v (advancePc s) with ⟨_, e⟩ | ⟨hle, _⟩
  · rw [e, writeAcc_advancePc, flagsOf_of_gt h]
    rfl
  · omega

/-- Settles O30: the address check, then the range of the sum. -/
theorem addResult : Obligations.AddResult := by
  rintro a sum s rfl
  refine ⟨rfl, fun ha hle => ?_, fun ha hgt => ?_, fun ha => exec_add_of_invalid ((valid_false_iff a).mpr ha)⟩
  · rw [exec_add_of_valid ((valid_iff a).mpr ha), finishArith_advancePc_of_le s hle]
  · rw [exec_add_of_valid ((valid_iff a).mpr ha), finishArith_advancePc_of_gt s hgt]

/-- Settles O31: the address check, then the range of the difference. -/
theorem subResult : Obligations.SubResult := by
  rintro a diff s rfl
  refine ⟨rfl, fun ha hle => ?_, fun ha hgt => ?_, fun ha => exec_sub_of_invalid ((valid_false_iff a).mpr ha)⟩
  · rw [exec_sub_of_valid ((valid_iff a).mpr ha), finishArith_advancePc_of_le s hle]
  · rw [exec_sub_of_valid ((valid_iff a).mpr ha), finishArith_advancePc_of_gt s hgt]

/-- R81: the overflow test of ADD and SUB looks at the signed value of the new ACC alone. -/
theorem finishArith_cause_iff {v : Word W} {s t : State W} (h : finishArith v s = .next t) (hs : s.cause = .none) :
    (t.cause = .arithOverflow ↔ 127 < t.acc.toInt) ∧ (t.acc.toInt < -128 → t.cause = .none ∧ t.status = 0b010) := by
  rcases finishArith_cases v s with ⟨hgt, e⟩ | ⟨hle, e⟩ <;> cases e.symm.trans h
  · exact ⟨iff_of_true rfl hgt, fun hlt => absurd (hgt.trans hlt) (by decide)⟩
  · exact ⟨iff_of_false (by simp [hs]) (not_lt.mpr hle), fun hlt => ⟨hs, flagsOf_of_neg (hlt.trans (by decide))⟩⟩

/-- Settles O25: ADD and SUB end alike. -/
theorem overflowIsResultAbove127 : Obligations.OverflowIsResultAbove127 := by
  intro a s t ha hs h
  have hv := (valid_iff a).mpr ha
  rw [exec_add_of_valid hv, exec_sub_of_valid hv] at h
  exact h.elim (finishArith_cause_iff · hs) (finishArith_cause_iff · hs)

/-- Settles O42: these five have no fault, and CMP# alone of them writes STATUS. -/
theorem pcAndFlagInstructionFrame : Obligations.PcAndFlagInstructionFrame := by
  intro i v s t hi h
  cases execNext_of_exec h with
  | noneOp | jmp | beqTaken | beqPassed | skp =>
    exact ⟨rfl, rfl, rfl, ⟨rfl, rfl, rfl⟩, fun _ => rfl, fun _ => rfl⟩
  | cmpImm u =>
    have hu : Instr.cmpImm u = .cmpImm v := by simpa using hi
    exact ⟨rfl, rfl, rfl, ⟨rfl, rfl, rfl⟩, fun _ => rfl, fun hne => absurd hu hne⟩
  | _ => simp at hi

end Sys2Proof.Machine
end

section
/-! Jumps, calls and returns: the new state of JMP, BEQ, JSR and RTN, the frame of the two stack instructions, and the call
that returns (spec/43_control_transfer.md R82 to R88). -/

namespace Sys2Proof.Machine

open Sys2Proof.Certificates.Slice0

/-- R84, R87: a JSR with no room on the stack raises STACK_OVERFLOW. -/
theorem exec_jsr_of_full {target : Word} {s : State} (h : s.tos.toInt ≤ 0) :
    exec (.jsr target) s = .next (faultedPast .stackOverflow s) := by
  rw [← execAt_eq_exec, ← raiseFault_advancePc]
  rcases execAtJsr_cases target s with ⟨_, e⟩ | ⟨⟨h1, _⟩, _⟩ | ⟨h20, _⟩
  · exact e
  · omega
  · omega

/-- R85: an RTN with TOS in 0..19 takes PC from the stack cell and pops it. -/
theorem exec_rtn_of_pushed {opd : Word} {s : State} (h0 : 0 ≤ s.tos.toInt) (h19 : s.tos.toInt ≤ 19) :
    exec (.rtn opd) s = .next { s with pc := (s.cellAt (cellIndex s.tos)).opd, tos := s.tos + 1 } := by
  rw [← execAt_eq_exec, ← incW_eq]
  rcases execAtRtn_cases opd s with ⟨h20, _⟩ | ⟨_, _, e⟩ | ⟨hneg, _⟩
  · omega
  · exact e
  · omega

/-- R85, R87: an RTN on the empty stack raises STACK_UNDERFLOW. -/
theorem exec_rtn_of_empty {opd : Word} {s : State} (h : 20 ≤ s.tos.toInt) :
    exec (.rtn opd) s = .next (faultedPast .stackUnderflow s) := by
  rw [← execAt_eq_exec, ← raiseFault_advancePc]
  rcases execAtRtn_cases opd s with ⟨_, e⟩ | ⟨⟨_, h19⟩, _⟩ | ⟨hneg, _⟩
  · exact e
  · omega
  · omega

/-- Settles O33: PC is written over its own advance. -/
theorem jmpResult : Obligations.JmpResult :=
  fun _ _ => ⟨rfl, rfl⟩

/-- Settles O34: the flag that BEQ tests is bit 2 of STATUS. -/
theorem beqResult : Obligations.BeqResult :=
  fun target s => ⟨rfl, exec_beq target s⟩

/-- Settles O35: the push is one operand write at the new TOS, and the bound check comes before it. -/
theorem jsrResult : Obligations.JsrResult := by
  intro target s hm
  refine ⟨rfl, fun ⟨h1, h20⟩ => ?_, exec_jsr_of_full⟩
  rw [← decW_eq, ← incW_eq]
  exact ⟨_, exec_jsr_of_room h1 h20, State.writeOpd_cellAt_same ((advancePc s).setTos (decW s.tos)) _ _ hm,
    fun n hn => State.writeOpd_cellAt_ne ((advancePc s).setTos (decW s.tos)) _ hn, rfl⟩

/-- Settles O36: the bound check decides between the pop and the fault. -/
theorem rtnResult : Obligations.RtnResult :=
  fun _ _ => ⟨rfl, fun ⟨h0, h19⟩ => exec_rtn_of_pushed h0 h19, exec_rtn_of_empty⟩

/-- Settles O44: the push and the pop raise no fault, and a stack fault comes before any of their writes. -/
theorem callAndReturnFrame : Obligations.CallAndReturnFrame := by
  refine fun v s t => ⟨fun h => ?_, fun h => ?_⟩
  · cases execNext_of_exec h with
    | jsr =>
      exact ⟨rfl, rfl, rfl, .inl ⟨rfl, rfl, rfl⟩,
        fun n hn => State.writeOpd_cellAt_ne ((advancePc s).setTos (decW s.tos)) (incW s.pc) hn⟩
    | jsrFault => exact ⟨rfl, rfl, rfl, .inr ⟨⟨rfl, rfl, rfl⟩, rfl, rfl⟩, fun _ _ => rfl⟩
  · cases execNext_of_exec h with
    | rtn => exact ⟨rfl, rfl, rfl, .inl ⟨rfl, rfl, rfl⟩, fun _ => rfl⟩
    | rtnFault => exact ⟨rfl, rfl, rfl, .inr ⟨⟨rfl, rfl, rfl⟩, rfl⟩, fun _ => rfl⟩

/-- Settles O51: the RTN pops what the JSR pushed, and the push wrote no cell but the new stack top. -/
theorem callReturnRoundTrip : Obligations.CallReturnRoundTrip := by
  intro s u v target opd hm h1 h20 hjsr hvtos hvtop
  obtain ⟨_, hroom, _⟩ := jsrResult target s hm
  obtain ⟨t, ht, htop, hrest, hframe⟩ := hroom ⟨h1, h20⟩
  obtain rfl : t = u := by injection ht.symm.trans hjsr
  have hutos : t.tos = s.tos - 1 := congrArg (·.tos) hframe
  have hdec : (s.tos - 1).toInt = s.tos.toInt - 1 := by rw [← decW_eq, decW_toInt (by omega)]
  have hret : (v.cellAt (cellIndex v.tos)).opd = s.pc + 1 := by rw [hvtop, hutos, htop]
  have hpop : v.tos + 1 = s.tos := by rw [hvtos, hutos, sub_add_cancel]
  rw [hutos] at hvtos
  refine ⟨?_, fun n hn => hrest n (by rw [← hutos]; omega)⟩
  rw [exec_rtn_of_pushed (by rw [hvtos]; omega) (by rw [hvtos]; omega), hret, hpop]

end Sys2Proof.Machine
end

section
/-! SKP, none, HLT, ERR and the reserved opcodes: the new state of each, and the frame of those that stop the engine
(spec/44_misc.md R90 to R94). -/

namespace Sys2Proof.Machine

open Sys2Proof.Certificates.Slice0

/-- Settles O38: both are the PC advance. -/
theorem noOperationResult : Obligations.NoOperationResult := by
  intro opd s
  rw [← execAt_eq_exec, execAt_skp, ← execAt_eq_exec, execAt_noneOp, advancePc_eq]
  exact ⟨rfl, rfl, rfl, rfl⟩

/-- Settles O39: HLT is the change of ES, with no PC advance before it. -/
theorem hltResult : Obligations.HltResult := by
  intro opd s
  rw [← execAt_eq_exec, execAt_hlt]
  exact ⟨rfl, rfl⟩

/-- Settles O40: the three raise one fault past the PC advance. -/
theorem illegalOpcodeResult : Obligations.IllegalOpcodeResult := by
  intro opd s
  refine ⟨rfl, rfl, rfl, ?_, ?_, ?_⟩ <;> rw [← execAt_eq_exec, ← raiseFault_advancePc]
  · exact execAt_err opd s
  · exact execAt_reserved14 opd s
  · exact execAt_reserved15 opd s

/-- Settles O45: HLT writes ES alone, and the other three write PC and raise the fault. -/
theorem stoppingInstructionFrame : Obligations.StoppingInstructionFrame := by
  intro i v s t hi h
  cases execNext_of_exec h with
  | hlt u =>
    have hu : Instr.hlt u = .hlt v := by simpa using hi
    exact ⟨rfl, rfl, rfl, rfl, fun _ => rfl, fun _ => ⟨rfl, rfl, rfl⟩, fun hne => absurd hu hne⟩
  | err | reserved14 | reserved15 => exact ⟨rfl, rfl, rfl, rfl, fun _ => rfl, nofun, fun _ => ⟨rfl, rfl, rfl⟩⟩
  | _ => simp at hi

end Sys2Proof.Machine
end

section
/-! The faults: which instruction raises which cause, and what each leaves (spec/60_exceptions.md R96 to R100). -/

namespace Sys2Proof.Machine

open Sys2Proof.Certificates.Slice0

variable {W : Nat} {i : Instr W} {s t : State W}

/-! ### The cause that an instruction raises -/

/-- R97: FETCH_ADDRESS is raised by the fetch alone, by no instruction. -/
theorem ExecNext.cause_ne_fetchAddress (h : ExecNext i s t) (hs : s.cause = .none) : t.cause ≠ .fetchAddress := by
  cases h with
  | ldaFault | staFault | addFault | subFault | addOverflow | subOverflow | jsrFault | rtnFault | err | reserved14
  | reserved15 => exact nofun
  | _ => exact fun hc => nomatch hs.symm.trans hc

/-- R93, R94, R97: ERR, 14 and 15 raise ILLEGAL_OPCODE. -/
theorem ExecNext.cause_eq_illegalOpcode_iff (h : ExecNext i s t) (hs : s.cause = .none) :
    t.cause = .illegalOpcode ↔ i.opcode = 0b1101 ∨ i.opcode = 0b1110 ∨ i.opcode = 0b1111 := by
  cases h with
  | err | reserved14 | reserved15 => exact iff_of_true rfl (by simp [Instr.opcode])
  | _ => exact iff_of_false (by simp [hs]) (by simp [Instr.opcode])

/-- R71, R72, R77, R78, R97: LDA, STA, ADD and SUB raise DATA_ADDRESS, for an invalid operand address. -/
theorem ExecNext.cause_eq_dataAddress_iff (h : ExecNext i s t) (hs : s.cause = .none) :
    t.cause = .dataAddress ↔
      (i.opcode = 0b0001 ∨ i.opcode = 0b0010 ∨ i.opcode = 0b0100 ∨ i.opcode = 0b0110) ∧ ¬ valid i.operand = true := by
  cases h with
  | ldaFault _ _ hv | staFault _ _ hv | addFault _ _ hv | subFault _ _ hv =>
    exact iff_of_true rfl (by simp [Instr.opcode, Instr.operand, hv])
  | lda _ _ hv | sta _ _ hv | add _ _ _ hv | addOverflow _ _ _ hv | sub _ _ _ hv | subOverflow _ _ _ hv =>
    exact iff_of_false (by simp [hs]) (by simp [Instr.operand, hv])
  | _ => exact iff_of_false (by simp [hs]) (by simp [Instr.opcode])

/-- R84, R87, R97: JSR raises STACK_OVERFLOW, when the stack has no room. -/
theorem ExecNext.cause_eq_stackOverflow_iff (h : ExecNext i s t) (hs : s.cause = .none) :
    t.cause = .stackOverflow ↔ i.opcode = 0b1010 ∧ s.tos.toInt ≤ 0 := by
  cases h with
  | jsrFault _ _ hfull => exact iff_of_true rfl ⟨rfl, hfull⟩
  | jsr _ _ h1 => exact iff_of_false (by simp [hs]) (by omega)
  | _ => exact iff_of_false (by simp [hs]) (by simp [Instr.opcode])

/-- R85, R87, R97: RTN raises STACK_UNDERFLOW, when the stack is empty. -/
theorem ExecNext.cause_eq_stackUnderflow_iff (h : ExecNext i s t) (hs : s.cause = .none) :
    t.cause = .stackUnderflow ↔ i.opcode = 0b1011 ∧ 20 ≤ s.tos.toInt := by
  cases h with
  | rtnFault _ _ hempty => exact iff_of_true rfl ⟨rfl, hempty⟩
  | rtn _ _ _ h19 => exact iff_of_false (by simp [hs]) (by omega)
  | _ => exact iff_of_false (by simp [hs]) (by simp [Instr.opcode])

/-- R81, R97, R99: ADD and SUB raise ARITH_OVERFLOW, for a valid operand address and a result above 127. -/
theorem ExecNext.cause_eq_arithOverflow_iff (h : ExecNext i s t) (hs : s.cause = .none) :
    t.cause = .arithOverflow ↔ valid i.operand = true ∧
      ((i.opcode = 0b0100 ∧ 127 < (s.acc + (s.cellAt (cellIndex i.operand)).opd).toInt) ∨
       (i.opcode = 0b0110 ∧ 127 < (s.acc - (s.cellAt (cellIndex i.operand)).opd).toInt)) := by
  cases h with
  | addOverflow _ _ _ hv hr hgt => exact iff_of_true rfl ⟨hv, .inl ⟨rfl, hr ▸ hgt⟩⟩
  | subOverflow _ _ _ hv hr hgt => exact iff_of_true rfl ⟨hv, .inr ⟨rfl, hr ▸ hgt⟩⟩
  | add _ _ _ _ hr hle | sub _ _ _ _ hr hle =>
    exact iff_of_false (by simp [hs]) (by simpa [Instr.opcode, Instr.operand, ← hr] using fun _ => hle)
  | addFault _ _ hv | subFault _ _ hv => exact iff_of_false (by simp) (by simp [Instr.operand, hv])
  | _ => exact iff_of_false (by simp [hs]) (by simp [Instr.opcode])

/-- R27: a running engine that meets the invariant has no cause set. -/
theorem State.inv.cause_eq_none (hi : s.inv) (hes : s.es = .running) : s.cause = .none := by
  obtain ⟨_, hregs⟩ := hi
  obtain ⟨_, _, _, hcause⟩ := hregs (by simp [hes])
  by_contra hne
  exact absurd (hes.symm.trans (hcause.mp hne)) (by decide)

/-- R22: a running engine that meets the invariant has TOS in 0..20. -/
theorem State.inv.tos_range (hi : s.inv) (hes : s.es = .running) : 0 ≤ s.tos.toInt ∧ s.tos.toInt ≤ 20 := by
  obtain ⟨_, hregs⟩ := hi
  obtain ⟨htos, _⟩ := hregs (by simp [hes])
  exact htos

/-- Settles O52: the fetch raises FETCH_ADDRESS before anything is decoded, and past it each cause is its instruction's. -/
theorem faultCauses : Obligations.FaultCauses := by
  rintro s t c m hi hes h rfl rfl
  have hnone := hi.cause_eq_none hes
  obtain ⟨h0, h20⟩ := hi.tos_range hes
  simp only [inMemory, ← valid_iff]
  obtain ⟨_, ⟨hv, rfl⟩ | ⟨hv, hx⟩⟩ := stepAt_next ((stepAt_eq_step s).trans h)
  · simp [hv]
  · have hfull : s.tos.toInt = 0 ↔ s.tos.toInt ≤ 0 := by omega
    have hempty : s.tos.toInt = 20 ↔ 20 ≤ s.tos.toInt := by omega
    rw [hfull, hempty, ← decodeCell_opcode, ← decodeCell_operand]
    exact ⟨iff_of_false (hx.cause_ne_fetchAddress hnone) (not_not_intro hv),
      by rw [hx.cause_eq_illegalOpcode_iff hnone, and_iff_right hv],
      by rw [hx.cause_eq_dataAddress_iff hnone, and_iff_right hv],
      by rw [hx.cause_eq_stackOverflow_iff hnone, and_iff_right hv, State.setIr_tos],
      by rw [hx.cause_eq_stackUnderflow_iff hnone, and_iff_right hv, State.setIr_tos],
      by rw [hx.cause_eq_arithOverflow_iff hnone, and_iff_right hv]; rfl⟩

/-! ### What a fault leaves -/

/-- R96, R98: an instruction that ends in HALTED_ERROR has advanced PC and raised a fault, and has written ACC and STATUS before
it only where the fault is ARITH_OVERFLOW. -/
theorem ExecNext.haltedError_cases (h : ExecNext i s t) (hes : s.es = .running) (ht : t.es = .haltedError) :
    (∃ c, c ∉ ([.none, .fetchAddress, .arithOverflow] : List Cause) ∧ t = raiseFault c (advancePc s)) ∨
    ∃ v, 127 < v.toInt ∧ t = raiseFault .arithOverflow ((advancePc s).writeAcc v) := by
  cases h with
  | ldaFault | staFault | addFault | subFault | jsrFault | rtnFault | err | reserved14 | reserved15 =>
    exact .inl ⟨_, by decide, rfl⟩
  | addOverflow _ _ r _ _ hgt | subOverflow _ _ r _ _ hgt => exact .inr ⟨r, hgt, rfl⟩
  | hlt => simp at ht
  | _ => simp [hes] at ht

/-- R97: where PC was advanced from a valid address and memory was left, the cell that was run is found below PC, unchanged. -/
theorem ranCell_below_pc (hW : 9 ≤ W) (hv : valid s.pc = true) (hpc : t.pc = incW s.pc) (hmem : t.mem = s.mem) :
    t.pc.toInt = s.pc.toInt + 1 ∧ t.cellAt (cellIndex (t.pc - 1)) = s.cellAt (cellIndex s.pc) := by
  obtain ⟨_, h19⟩ := (valid_iff s.pc).mp hv
  constructor
  · rw [hpc, incW_toInt_small hW (by omega)]
  · rw [hpc, incW_eq, add_sub_cancel_right, State.cellAt_eq_of_mem_eq hmem]

/-- Settles O53: the fault of the fetch, a fault that an instruction raises before its writes, or ARITH_OVERFLOW after them. -/
theorem faultsArePrecise : Obligations.FaultsArePrecise := by
  intro s t _ hes h ht
  obtain ⟨_, ⟨_, rfl⟩ | ⟨hv, hx⟩⟩ := stepAt_next ((stepAt_eq_step s).trans h)
  · exact ⟨rfl, nofun, rfl, fun _ => rfl, fun _ => rfl, fun hne => absurd rfl hne, fun _ => ⟨rfl, rfl⟩, nofun⟩
  · rcases hx.haltedError_cases hes ht with ⟨c, hc, rfl⟩ | ⟨v, hgt, rfl⟩
    · simp only [List.mem_cons, List.not_mem_nil, or_false, not_or] at hc
      obtain ⟨hnone, hfetch, harith⟩ := hc
      exact ⟨rfl, hnone, rfl, fun _ => rfl, fun e => absurd e hfetch,
        fun _ => ranCell_below_pc (by decide) hv rfl rfl, fun _ => ⟨rfl, rfl⟩, fun e => absurd e harith⟩
    · exact ⟨rfl, nofun, rfl, fun _ => rfl, nofun, fun _ => ranCell_below_pc (by decide) hv rfl rfl,
        fun hne => absurd rfl hne, fun _ => ⟨hgt, flagsOf_of_gt hgt⟩⟩

end Sys2Proof.Machine
end

section
/-! A running engine is never stuck: TOS outside 0..20 alone leaves an instruction without a next state
(spec/10_state.md R22; spec/70_reset_and_hazards.md R124). -/

namespace Sys2Proof.Machine

variable {W : Nat}

/-- R22: with TOS in 0..20 every instruction reaches a next state. -/
theorem execAt_next_of_tos_range (i : Instr W) {s : State W} (h0 : 0 ≤ s.tos.toInt) (h20 : s.tos.toInt ≤ 20) :
    ∃ t, execAt i s = .next t := by
  cases i with
  | lda a => rcases execAtLda_cases a s with ⟨_, e⟩ | ⟨_, e⟩ <;> exact ⟨_, e⟩
  | sta a => rcases execAtSta_cases a s with ⟨_, e⟩ | ⟨_, e⟩ <;> exact ⟨_, e⟩
  | add a => rcases execAtAdd_cases a s with ⟨_, e⟩ | ⟨_, _, _, ⟨_, e⟩ | ⟨_, e⟩⟩ <;> exact ⟨_, e⟩
  | sub a => rcases execAtSub_cases a s with ⟨_, e⟩ | ⟨_, _, _, ⟨_, e⟩ | ⟨_, e⟩⟩ <;> exact ⟨_, e⟩
  | beq target => rcases execAtBeq_cases target s with ⟨_, e⟩ | ⟨_, e⟩ <;> exact ⟨_, e⟩
  | jsr target =>
    rcases execAtJsr_cases target s with ⟨_, e⟩ | ⟨_, _, e⟩ | ⟨hover, _⟩
    · exact ⟨_, e⟩
    · exact ⟨_, e⟩
    · omega
  | rtn opd =>
    rcases execAtRtn_cases opd s with ⟨_, e⟩ | ⟨_, _, e⟩ | ⟨hneg, _⟩
    · exact ⟨_, e⟩
    · exact ⟨_, e⟩
    · omega
  | noneOp | ldaImm | jmp | cmpImm | skp | hlt | err | reserved14 | reserved15 => exact ⟨_, rfl⟩

/-- Settles O11: the fetch of a running engine never stops it, and the invariant bounds TOS. -/
theorem runningEngineAlwaysSteps : Obligations.RunningEngineAlwaysSteps := by
  intro s hi hes
  obtain ⟨h0, h20⟩ := hi.tos_range hes
  rcases step_cases s with ⟨hstopped, _⟩ | ⟨_, _, e⟩ | ⟨_, _, e⟩
  · exact absurd hes hstopped
  · exact ⟨_, e⟩
  · rw [e, ← execAt_eq_exec]
    exact execAt_next_of_tos_range _ h0 h20

end Sys2Proof.Machine
end

section
/-! The pre-flight check is made by the boot order and not by START (spec/70_reset_and_hazards.md R118 to R120). -/

namespace Sys2Proof.Machine

variable {W : Nat} {rs : BitVec 3}

/-- R115: the first step after a START runs the instruction that cell 0 holds, with the registers of START. -/
theorem step_start_of_cell {s : State} {i : Instr} (hes : s.es ≠ .running) (h0 : s.cellAt 0 = encode i) :
    step (hostOpWith rs .start s).1 = execAt i ((s.start rs).setIr (encode i)) := by
  rw [hostOpWith_start hes, ← stepAt_eq_step, stepAt_start, h0, decodeCell_encode]

/-- Settles O56: cell 0 is run like any other cell, whichever of the three instructions it holds. -/
theorem startMakesNoPreflightCheck : Obligations.StartMakesNoPreflightCheck := by
  rintro rs s _ hes rfl
  refine ⟨fun hop => ?_, fun h0 => ?_, fun h0 => ?_⟩
  · have h0 : s.cellAt 0 = encode (.err (s.cellAt 0).opd) := by
      rw [encode, Instr.opcode, Instr.operand, ← hop]
    exact ⟨_, (step_start_of_cell hes h0).trans (execAt_err _ _), rfl, rfl, rfl, rfl⟩
  · exact ⟨_, (step_start_of_cell (i := .noneOp 0) hes h0).trans (execAt_noneOp _ _), rfl, rfl⟩
  · exact ⟨_, (step_start_of_cell (i := .jmp 0) hes h0).trans (execAt_jmp _ _), rfl, rfl⟩

/-- R114, U13: an image that does not give the 20 cells is refused before anything is loaded. -/
theorem bootWith_of_not_full {img : List (MemCell W)} (s : State W) (hlen : img.length ≠ 20) :
    bootWith rs img s = .refused .imageNotFull :=
  if_neg (by simpa [imageFull] using hlen)

/-- R118, U1: a full image whose loaded cell 0 fails the check is refused. -/
theorem bootWith_of_not_ok {img : List (MemCell W)} {s : State W} (hlen : img.length = 20)
    (hbad : ¬ preflightOk ((loadImageFrom rs 0 img s).cellAt 0) = true) :
    bootWith rs img s = .refused .preflightFailed := by
  have hfull : imageFull img = true := by simp [imageFull, hlen]
  rw [bootWith, if_pos hfull, if_neg hbad]

/-- Settles O59: the cell 0 that the check reads is the image's first. -/
theorem bootRefusesBadImage : Obligations.BootRefusesBadImage := by
  refine fun img s hm hes => ⟨bootWith_of_not_full s, fun hlen hpre => bootWith_of_not_ok hlen ?_⟩
  have hcell := loadImageFrom_cellAt Config.defaultResetStatus img hm hes (n := 0) (k := 0) (by omega) (by omega)
  rw [preflightOk_iff, not_and_or, not_not, not_not]
  exact hpre _ hcell

end Sys2Proof.Machine
end
